-- ==== Sys2Proof/Word.lean ====
section
/-! DEFINITION. The widths of the hardware (`00_scope.md` R5): every quantity is an unsigned value of a stated
width (R7), so each is a bit vector, and a register index is a number below 16. -/

namespace Sys2Proof

/-- A general register, a timer or a memory byte: 8 bits (`10_state.md` R10, R17, R21). -/
abbrev Byte := BitVec 8

/-- A byte address, the program counter, the index register or a stack slot: 12 bits (R14, R15, R18). -/
abbrev Addr := BitVec 12

/-- An instruction word: 16 bits (`30_encoding.md` R60). -/
abbrev Word := BitVec 16

/-- One framebuffer row, a mask of 64 pixels (`10_state.md` R22). -/
abbrev RowBits := BitVec 64

/-- The number of a general register, 0 to 15 by construction (`10_state.md` R10). -/
abbrev RegNum := Fin 16

end Sys2Proof
end

