-- ==== Sys2Proof/Syntax.lean ====
section
/-! DEFINITION. The instructions, one constructor per row of spec/opcode_table.json (`30_encoding.md` R64), their
operation tags (R70), formats (R62) and assembler text (R71). Operand fields have exactly their encoded width. -/

namespace Sys2Proof

/-- The 34 instructions, in the order of the opcode table. `x`, `y` are register numbers, `kk` an 8-bit immediate,
`addr` a 12-bit address, `n` a sprite height. The two shifts keep their ignored `y` (R67), so no bit of a word is lost. -/
inductive Instr where
  | cls
  | ret
  | jpAddr (addr : Addr)
  | callAddr (addr : Addr)
  | seVxKk (x : RegNum) (kk : Byte)
  | sneVxKk (x : RegNum) (kk : Byte)
  | seVxVy (x y : RegNum)
  | sneVxVy (x y : RegNum)
  | ldVxKk (x : RegNum) (kk : Byte)
  | addVxKk (x : RegNum) (kk : Byte)
  | ldVxVy (x y : RegNum)
  | orVxVy (x y : RegNum)
  | andVxVy (x y : RegNum)
  | xorVxVy (x y : RegNum)
  | addVxVy (x y : RegNum)
  | subVxVy (x y : RegNum)
  | subnVxVy (x y : RegNum)
  | shrVx (x y : RegNum)
  | shlVx (x y : RegNum)
  | ldIAddr (addr : Addr)
  | jpV0Addr (addr : Addr)
  | rndVxKk (x : RegNum) (kk : Byte)
  | drwVxVyN (x y : RegNum) (n : BitVec 4)
  | skpVx (x : RegNum)
  | sknpVx (x : RegNum)
  | ldVxDt (x : RegNum)
  | ldDtVx (x : RegNum)
  | ldStVx (x : RegNum)
  | ldVxK (x : RegNum)
  | addIVx (x : RegNum)
  | ldFVx (x : RegNum)
  | ldBVx (x : RegNum)
  | ldMemVx (x : RegNum)
  | ldVxMem (x : RegNum)
  deriving DecidableEq, Repr

/-- The decoder's operation tags, a closed set of 34 values (R70), in table order. -/
inductive Op where
  | cls | ret | jpAddr | callAddr | seVxKk | sneVxKk | seVxVy | sneVxVy | ldVxKk | addVxKk | ldVxVy
  | orVxVy | andVxVy | xorVxVy | addVxVy | subVxVy | subnVxVy | shrVx | shlVx | ldIAddr | jpV0Addr
  | rndVxKk | drwVxVyN | skpVx | sknpVx | ldVxDt | ldDtVx | ldStVx | ldVxK | addIVx | ldFVx | ldBVx
  | ldMemVx | ldVxMem
  deriving DecidableEq, Repr

/-- The operation of an instruction. -/
def Instr.op : Instr → Op
  | .cls => .cls
  | .ret => .ret
  | .jpAddr _ => .jpAddr
  | .callAddr _ => .callAddr
  | .seVxKk _ _ => .seVxKk
  | .sneVxKk _ _ => .sneVxKk
  | .seVxVy _ _ => .seVxVy
  | .sneVxVy _ _ => .sneVxVy
  | .ldVxKk _ _ => .ldVxKk
  | .addVxKk _ _ => .addVxKk
  | .ldVxVy _ _ => .ldVxVy
  | .orVxVy _ _ => .orVxVy
  | .andVxVy _ _ => .andVxVy
  | .xorVxVy _ _ => .xorVxVy
  | .addVxVy _ _ => .addVxVy
  | .subVxVy _ _ => .subVxVy
  | .subnVxVy _ _ => .subnVxVy
  | .shrVx _ _ => .shrVx
  | .shlVx _ _ => .shlVx
  | .ldIAddr _ => .ldIAddr
  | .jpV0Addr _ => .jpV0Addr
  | .rndVxKk _ _ => .rndVxKk
  | .drwVxVyN _ _ _ => .drwVxVyN
  | .skpVx _ => .skpVx
  | .sknpVx _ => .sknpVx
  | .ldVxDt _ => .ldVxDt
  | .ldDtVx _ => .ldDtVx
  | .ldStVx _ => .ldStVx
  | .ldVxK _ => .ldVxK
  | .addIVx _ => .addIVx
  | .ldFVx _ => .ldFVx
  | .ldBVx _ => .ldBVx
  | .ldMemVx _ => .ldMemVx
  | .ldVxMem _ => .ldVxMem

/-- The number of an operation tag, 0 to 33, a 6-bit output of the decoder (R70). -/
def Op.tag : Op → BitVec 6
  | .cls => 0
  | .ret => 1
  | .jpAddr => 2
  | .callAddr => 3
  | .seVxKk => 4
  | .sneVxKk => 5
  | .seVxVy => 6
  | .sneVxVy => 7
  | .ldVxKk => 8
  | .addVxKk => 9
  | .ldVxVy => 10
  | .orVxVy => 11
  | .andVxVy => 12
  | .xorVxVy => 13
  | .addVxVy => 14
  | .subVxVy => 15
  | .subnVxVy => 16
  | .shrVx => 17
  | .shlVx => 18
  | .ldIAddr => 19
  | .jpV0Addr => 20
  | .rndVxKk => 21
  | .drwVxVyN => 22
  | .skpVx => 23
  | .sknpVx => 24
  | .ldVxDt => 25
  | .ldDtVx => 26
  | .ldStVx => 27
  | .ldVxK => 28
  | .addIVx => 29
  | .ldFVx => 30
  | .ldBVx => 31
  | .ldMemVx => 32
  | .ldVxMem => 33

/-- The six formats (R62). -/
inductive Format where
  | z | a | xk | xy | xyn | x
  deriving DecidableEq, Repr

/-- The format of each operation (R62, R64). -/
def Op.format : Op → Format
  | .cls | .ret => .z
  | .jpAddr | .callAddr | .ldIAddr | .jpV0Addr => .a
  | .seVxKk | .sneVxKk | .ldVxKk | .addVxKk | .rndVxKk => .xk
  | .seVxVy | .sneVxVy | .ldVxVy | .orVxVy | .andVxVy | .xorVxVy | .addVxVy | .subVxVy | .subnVxVy
  | .shrVx | .shlVx => .xy
  | .drwVxVyN => .xyn
  | .skpVx | .sknpVx | .ldVxDt | .ldDtVx | .ldStVx | .ldVxK | .addIVx | .ldFVx | .ldBVx | .ldMemVx
  | .ldVxMem => .x

/-- What the assembler emits for an instruction's text: the shifts with `y = 0` (R71), every other as it stands. -/
def Instr.assembled : Instr → Instr
  | .shrVx x _ => .shrVx x 0
  | .shlVx x _ => .shlVx x 0
  | i => i

/-- The text of a register operand, `V0` to `VF` (R71). -/
def regText (x : RegNum) : String :=
  "V" ++ String.singleton (Nat.digitChar x.val).toUpper

/-- The text of an instruction in the spec's assembler form (R64 column `syntax`, R71). It has no semantic weight.
DESIGN CHOICE (log entry 22): numbers are written in decimal. -/
def Instr.asm : Instr → String
  | .cls => "CLS"
  | .ret => "RET"
  | .jpAddr addr => "JP " ++ toString addr.toNat
  | .callAddr addr => "CALL " ++ toString addr.toNat
  | .seVxKk x kk => "SE " ++ regText x ++ ", " ++ toString kk.toNat
  | .sneVxKk x kk => "SNE " ++ regText x ++ ", " ++ toString kk.toNat
  | .seVxVy x y => "SE " ++ regText x ++ ", " ++ regText y
  | .sneVxVy x y => "SNE " ++ regText x ++ ", " ++ regText y
  | .ldVxKk x kk => "LD " ++ regText x ++ ", " ++ toString kk.toNat
  | .addVxKk x kk => "ADD " ++ regText x ++ ", " ++ toString kk.toNat
  | .ldVxVy x y => "LD " ++ regText x ++ ", " ++ regText y
  | .orVxVy x y => "OR " ++ regText x ++ ", " ++ regText y
  | .andVxVy x y => "AND " ++ regText x ++ ", " ++ regText y
  | .xorVxVy x y => "XOR " ++ regText x ++ ", " ++ regText y
  | .addVxVy x y => "ADD " ++ regText x ++ ", " ++ regText y
  | .subVxVy x y => "SUB " ++ regText x ++ ", " ++ regText y
  | .subnVxVy x y => "SUBN " ++ regText x ++ ", " ++ regText y
  | .shrVx x _ => "SHR " ++ regText x
  | .shlVx x _ => "SHL " ++ regText x
  | .ldIAddr addr => "LD I, " ++ toString addr.toNat
  | .jpV0Addr addr => "JP V0, " ++ toString addr.toNat
  | .rndVxKk x kk => "RND " ++ regText x ++ ", " ++ toString kk.toNat
  | .drwVxVyN x y n => "DRW " ++ regText x ++ ", " ++ regText y ++ ", " ++ toString n.toNat
  | .skpVx x => "SKP " ++ regText x
  | .sknpVx x => "SKNP " ++ regText x
  | .ldVxDt x => "LD " ++ regText x ++ ", DT"
  | .ldDtVx x => "LD DT, " ++ regText x
  | .ldStVx x => "LD ST, " ++ regText x
  | .ldVxK x => "LD " ++ regText x ++ ", K"
  | .addIVx x => "ADD I, " ++ regText x
  | .ldFVx x => "LD F, " ++ regText x
  | .ldBVx x => "LD B, " ++ regText x
  | .ldMemVx x => "LD [I], " ++ regText x
  | .ldVxMem x => "LD " ++ regText x ++ ", [I]"

end Sys2Proof
end

