-- ==== Sys2Proof/WellFormed.lean ====
section
/-! DEFINITION. Which words are instructions, and which operands an instruction may have.

Every operand field of `Instr` has exactly its encoded width, and every value of every free field is legal
(`30_encoding.md` R67), so no term of `Instr` is ill-formed; what can be ill-formed is a word (R66) or an operand
given as a number, as the assembler's are (R71). Both checks stand here, and both are written from those rules and
not from the decoder's table. -/

namespace Sys2Proof

/-- The legality of a word by family, as R66 lists it: the decoder's mask and match table is not used. -/
def legalWord (w : Word) : Bool :=
  let family := w.toNat / 0x1000
  let n := w.toNat % 0x10
  let kk := w.toNat % 0x100
  match family with
  | 0x0 => w == 0x00E0 || w == 0x00EE
  | 0x5 => n == 0
  | 0x8 => decide (n ≤ 7) || n == 0xE
  | 0x9 => n == 0
  | 0xE => kk == 0x9E || kk == 0xA1
  | 0xF => kk == 0x07 || kk == 0x0A || kk == 0x15 || kk == 0x18 || kk == 0x1E || kk == 0x29 || kk == 0x33
      || kk == 0x55 || kk == 0x65
  | _ => true

/-- An instruction with its operands still numbers, as an assembler reads them: the operation and `x`, `y`, `n`,
`kk`, `addr` (R71). An operand the format does not have is not looked at. -/
structure RawInstr where
  op : Op
  x : Nat := 0
  y : Nat := 0
  n : Nat := 0
  kk : Nat := 0
  addr : Nat := 0
  deriving DecidableEq, Repr

/-- The operand bounds of each format: `Vx` and `Vy` name `V0` to `VF`, `n` is 0 to 15, `kk` is 0 to 255, `addr` is
0 to 0xFFF (R71). -/
def RawInstr.wellFormed (r : RawInstr) : Bool :=
  match r.op.format with
  | .z => true
  | .a => decide (r.addr ≤ 0xFFF)
  | .xk => decide (r.x ≤ 15) && decide (r.kk ≤ 255)
  | .xy => decide (r.x ≤ 15) && decide (r.y ≤ 15)
  | .xyn => decide (r.x ≤ 15) && decide (r.y ≤ 15) && decide (r.n ≤ 15)
  | .x => decide (r.x ≤ 15)

end Sys2Proof
end

