-- ==== Sys2Proof/Decode.lean ====
section
/-! DEFINITION. The decoder (`30_encoding.md` R61, R63, R64) and, after it, the encoder written from the same table.
The decoder is a pure function of the word, total, and rejects a word that matches no row by name (R66). -/

namespace Sys2Proof

/-- The fields the decoder extracts from every word, used or not (R61, R63). -/
structure Fields where
  x : RegNum
  y : RegNum
  n : BitVec 4
  kk : Byte
  addr : Addr
  deriving DecidableEq, Repr

/-- The fields of a word at the bit positions of R61. -/
def fieldsOf (w : Word) : Fields where
  x := (w.extractLsb' 8 4).toFin
  y := (w.extractLsb' 4 4).toFin
  n := w.extractLsb' 0 4
  kk := w.extractLsb' 0 8
  addr := w.extractLsb' 0 12

/-- One row of the opcode table: an operation, the mask of its fixed bits and their value (R64). -/
structure OpRow where
  op : Op
  mask : Word
  value : Word
  deriving DecidableEq, Repr

/-- The masked comparison of R63: the row's fixed bits stand in the word. -/
def OpRow.fits (r : OpRow) (w : Word) : Bool :=
  (w &&& r.mask) == r.value

/-- Rows 0 to 7 of R64. -/
def opRowsFlow : List OpRow :=
  [⟨.cls, 0xFFFF, 0x00E0⟩,
   ⟨.ret, 0xFFFF, 0x00EE⟩,
   ⟨.jpAddr, 0xF000, 0x1000⟩,
   ⟨.callAddr, 0xF000, 0x2000⟩,
   ⟨.seVxKk, 0xF000, 0x3000⟩,
   ⟨.sneVxKk, 0xF000, 0x4000⟩,
   ⟨.seVxVy, 0xF00F, 0x5000⟩,
   ⟨.sneVxVy, 0xF00F, 0x9000⟩]

/-- Rows 8 to 18 of R64. -/
def opRowsAlu : List OpRow :=
  [⟨.ldVxKk, 0xF000, 0x6000⟩,
   ⟨.addVxKk, 0xF000, 0x7000⟩,
   ⟨.ldVxVy, 0xF00F, 0x8000⟩,
   ⟨.orVxVy, 0xF00F, 0x8001⟩,
   ⟨.andVxVy, 0xF00F, 0x8002⟩,
   ⟨.xorVxVy, 0xF00F, 0x8003⟩,
   ⟨.addVxVy, 0xF00F, 0x8004⟩,
   ⟨.subVxVy, 0xF00F, 0x8005⟩,
   ⟨.subnVxVy, 0xF00F, 0x8007⟩,
   ⟨.shrVx, 0xF00F, 0x8006⟩,
   ⟨.shlVx, 0xF00F, 0x800E⟩]

/-- Rows 19 to 24 of R64. -/
def opRowsIndex : List OpRow :=
  [⟨.ldIAddr, 0xF000, 0xA000⟩,
   ⟨.jpV0Addr, 0xF000, 0xB000⟩,
   ⟨.rndVxKk, 0xF000, 0xC000⟩,
   ⟨.drwVxVyN, 0xF000, 0xD000⟩,
   ⟨.skpVx, 0xF0FF, 0xE09E⟩,
   ⟨.sknpVx, 0xF0FF, 0xE0A1⟩]

/-- Rows 25 to 33 of R64. -/
def opRowsFx : List OpRow :=
  [⟨.ldVxDt, 0xF0FF, 0xF007⟩,
   ⟨.ldDtVx, 0xF0FF, 0xF015⟩,
   ⟨.ldStVx, 0xF0FF, 0xF018⟩,
   ⟨.ldVxK, 0xF0FF, 0xF00A⟩,
   ⟨.addIVx, 0xF0FF, 0xF01E⟩,
   ⟨.ldFVx, 0xF0FF, 0xF029⟩,
   ⟨.ldBVx, 0xF0FF, 0xF033⟩,
   ⟨.ldMemVx, 0xF0FF, 0xF055⟩,
   ⟨.ldVxMem, 0xF0FF, 0xF065⟩]

/-- The complete opcode table, 34 rows in the order of R64. -/
def opcodeTable : List OpRow :=
  opRowsFlow ++ opRowsAlu ++ opRowsIndex ++ opRowsFx

/-- The instruction of an operation with the fields its format uses (R62, R64). -/
def Op.build (o : Op) (f : Fields) : Instr :=
  match o with
  | .cls => .cls
  | .ret => .ret
  | .jpAddr => .jpAddr f.addr
  | .callAddr => .callAddr f.addr
  | .seVxKk => .seVxKk f.x f.kk
  | .sneVxKk => .sneVxKk f.x f.kk
  | .seVxVy => .seVxVy f.x f.y
  | .sneVxVy => .sneVxVy f.x f.y
  | .ldVxKk => .ldVxKk f.x f.kk
  | .addVxKk => .addVxKk f.x f.kk
  | .ldVxVy => .ldVxVy f.x f.y
  | .orVxVy => .orVxVy f.x f.y
  | .andVxVy => .andVxVy f.x f.y
  | .xorVxVy => .xorVxVy f.x f.y
  | .addVxVy => .addVxVy f.x f.y
  | .subVxVy => .subVxVy f.x f.y
  | .subnVxVy => .subnVxVy f.x f.y
  | .shrVx => .shrVx f.x f.y
  | .shlVx => .shlVx f.x f.y
  | .ldIAddr => .ldIAddr f.addr
  | .jpV0Addr => .jpV0Addr f.addr
  | .rndVxKk => .rndVxKk f.x f.kk
  | .drwVxVyN => .drwVxVyN f.x f.y f.n
  | .skpVx => .skpVx f.x
  | .sknpVx => .sknpVx f.x
  | .ldVxDt => .ldVxDt f.x
  | .ldDtVx => .ldDtVx f.x
  | .ldStVx => .ldStVx f.x
  | .ldVxK => .ldVxK f.x
  | .addIVx => .addIVx f.x
  | .ldFVx => .ldFVx f.x
  | .ldBVx => .ldBVx f.x
  | .ldMemVx => .ldMemVx f.x
  | .ldVxMem => .ldVxMem f.x

/-- Why bytes are not an instruction: the word matches no row of the table (R66, the decoder's `valid` = 0), or
there are not two bytes (no rule of the spec meets this: a fetch always has both). -/
inductive DecodeError where
  | unrecognizedOpcode (word : Word)
  | truncated
  deriving DecidableEq, Repr

/-- `Decode`, total on the 65536 words (R63). The table's rows are disjoint, so the order of search does not
matter. -/
def decode (w : Word) : Except DecodeError Instr :=
  match opcodeTable.find? (fun r => r.fits w) with
  | some r => .ok (r.op.build (fieldsOf w))
  | none => .error (.unrecognizedOpcode w)

/-- The word of two bytes in memory order: the byte at the lower address is the high byte (R60, `20_memory.md` R49). -/
def wordOfBytes (hi lo : Byte) : Word :=
  hi ++ lo

/-- Decoding from a byte string: the instruction and the bytes after it. -/
def decodeBytes : List Byte → Except DecodeError (Instr × List Byte)
  | hi :: lo :: rest => (decode (wordOfBytes hi lo)).map (fun i => (i, rest))
  | _ => .error .truncated

/-- The outputs of the decoder block (R63): `valid`, `tag` and the five fields. No rule says what `tag` is on an
illegal word, so there it is absent. -/
structure DecoderOutput where
  valid : Bool
  tag : Option (BitVec 6)
  fields : Fields
  deriving DecidableEq, Repr

/-- The decoder as a block: its outputs are a function of the word and of nothing else (R63). -/
def decoderOutput (w : Word) : DecoderOutput :=
  match decode w with
  | .ok i => ⟨true, some i.op.tag, fieldsOf w⟩
  | .error _ => ⟨false, none, fieldsOf w⟩

/-- The four bits that name a register in a word. -/
def nibble (x : RegNum) : BitVec 4 :=
  BitVec.ofFin x

/-- The word of an instruction, written from the patterns of R64: a hexadecimal digit of the pattern is a fixed
nibble, a letter a field. -/
def encode : Instr → Word
  | .cls => 0x00E0
  | .ret => 0x00EE
  | .jpAddr addr => 0x1#4 ++ addr
  | .callAddr addr => 0x2#4 ++ addr
  | .seVxKk x kk => 0x3#4 ++ nibble x ++ kk
  | .sneVxKk x kk => 0x4#4 ++ nibble x ++ kk
  | .seVxVy x y => 0x5#4 ++ nibble x ++ nibble y ++ 0x0#4
  | .sneVxVy x y => 0x9#4 ++ nibble x ++ nibble y ++ 0x0#4
  | .ldVxKk x kk => 0x6#4 ++ nibble x ++ kk
  | .addVxKk x kk => 0x7#4 ++ nibble x ++ kk
  | .ldVxVy x y => 0x8#4 ++ nibble x ++ nibble y ++ 0x0#4
  | .orVxVy x y => 0x8#4 ++ nibble x ++ nibble y ++ 0x1#4
  | .andVxVy x y => 0x8#4 ++ nibble x ++ nibble y ++ 0x2#4
  | .xorVxVy x y => 0x8#4 ++ nibble x ++ nibble y ++ 0x3#4
  | .addVxVy x y => 0x8#4 ++ nibble x ++ nibble y ++ 0x4#4
  | .subVxVy x y => 0x8#4 ++ nibble x ++ nibble y ++ 0x5#4
  | .subnVxVy x y => 0x8#4 ++ nibble x ++ nibble y ++ 0x7#4
  | .shrVx x y => 0x8#4 ++ nibble x ++ nibble y ++ 0x6#4
  | .shlVx x y => 0x8#4 ++ nibble x ++ nibble y ++ 0xE#4
  | .ldIAddr addr => 0xA#4 ++ addr
  | .jpV0Addr addr => 0xB#4 ++ addr
  | .rndVxKk x kk => 0xC#4 ++ nibble x ++ kk
  | .drwVxVyN x y n => 0xD#4 ++ nibble x ++ nibble y ++ n
  | .skpVx x => 0xE#4 ++ nibble x ++ 0x9E#8
  | .sknpVx x => 0xE#4 ++ nibble x ++ 0xA1#8
  | .ldVxDt x => 0xF#4 ++ nibble x ++ 0x07#8
  | .ldDtVx x => 0xF#4 ++ nibble x ++ 0x15#8
  | .ldStVx x => 0xF#4 ++ nibble x ++ 0x18#8
  | .ldVxK x => 0xF#4 ++ nibble x ++ 0x0A#8
  | .addIVx x => 0xF#4 ++ nibble x ++ 0x1E#8
  | .ldFVx x => 0xF#4 ++ nibble x ++ 0x29#8
  | .ldBVx x => 0xF#4 ++ nibble x ++ 0x33#8
  | .ldMemVx x => 0xF#4 ++ nibble x ++ 0x55#8
  | .ldVxMem x => 0xF#4 ++ nibble x ++ 0x65#8

/-- The two bytes of an instruction in memory order, high byte first (R60). -/
def encodeBytes (i : Instr) : List Byte :=
  [(encode i).extractLsb' 8 8, (encode i).extractLsb' 0 8]

/-- The instruction an assembler makes of numbered operands, where they are in range (R71). -/
def RawInstr.instr (r : RawInstr) : Option Instr :=
  if r.wellFormed then
    some (r.op.build
      { x := Fin.ofNat 16 r.x, y := Fin.ofNat 16 r.y, n := BitVec.ofNat 4 r.n, kk := BitVec.ofNat 8 r.kk,
        addr := BitVec.ofNat 12 r.addr })
  else none

/-- A whole number of bytes read as a word of the table's numbering (bit 0 the least significant bit of the first and
only word), every bit from `nbits` up zero, as the two bytes the hardware stores: high byte first (R60). -/
def tableWordBytes (nbits w : Nat) : List Byte :=
  let word : Word := BitVec.ofNat 16 (w % 2 ^ nbits)
  [word.extractLsb' 8 8, word.extractLsb' 0 8]

/-- What the decoder reads from an instruction given in the numbering of spec/opcode_table.json. -/
def decodeTableWord (nbits w : Nat) : Option Instr :=
  match decodeBytes (tableWordBytes nbits w) with
  | .ok (i, _) => some i
  | .error _ => none

end Sys2Proof
end

