-- ==== Sys2Proof/Config.lean ====
section
/-! DEFINITION. The parameters of the hardware. The fixed ones of `00_scope.md` R5 are constants; the open ones of R6
are the fields of `Parameters`, with their defaults in `Parameters.default`, and `rngNext`, a constant without a body. -/

namespace Sys2Proof.Config

/-- `ADDR_MAX`: the last byte address, 0xFFF = `MEM_SIZE` − 1 (R5). -/
def addrMax : Nat := 0xFFF

/-- `FONT_BASE` (R5). -/
def fontBase : Addr := 0x000

/-- `FONT_GLYPH_BYTES` (R5). -/
def fontGlyphBytes : Nat := 5

/-- `PROG_BASE`, where LoadProgram copies to (R5). -/
def progBase : Addr := 0x200

/-- `STACK_DEPTH` (R5). -/
def stackDepth : Nat := 16

/-- `MEM_FILL`, the reset contents of memory outside the font, one of the seven points R6 says a model need not carry.
DESIGN CHOICE (log entry 6): decision D20. -/
def memFill : Byte := 0x00

/-- The bytes of a font: `FONT_GLYPHS` · `FONT_GLYPH_BYTES` = 80 of them (R5). -/
abbrev Font := Vector Byte 80

/-- The default font of `20_memory.md` R44, digits 0 to F, five bytes a glyph, top row first. DESIGN CHOICE (log
entry 5): the spec takes the bytes from general knowledge (decision D9). -/
def fontBytes : List Byte :=
  [0xF0, 0x90, 0x90, 0x90, 0xF0] ++ [0x20, 0x60, 0x20, 0x20, 0x70] ++
  [0xF0, 0x10, 0xF0, 0x80, 0xF0] ++ [0xF0, 0x10, 0xF0, 0x10, 0xF0] ++
  [0x90, 0x90, 0xF0, 0x10, 0x10] ++ [0xF0, 0x80, 0xF0, 0x10, 0xF0] ++
  [0xF0, 0x80, 0xF0, 0x90, 0xF0] ++ [0xF0, 0x10, 0x20, 0x40, 0x40] ++
  [0xF0, 0x90, 0xF0, 0x90, 0xF0] ++ [0xF0, 0x90, 0xF0, 0x10, 0xF0] ++
  [0xF0, 0x90, 0xF0, 0x90, 0x90] ++ [0xE0, 0x90, 0xE0, 0x90, 0xE0] ++
  [0xF0, 0x80, 0x80, 0x80, 0xF0] ++ [0xE0, 0x90, 0x90, 0x90, 0xE0] ++
  [0xF0, 0x80, 0xF0, 0x80, 0xF0] ++ [0xF0, 0x80, 0xF0, 0x80, 0x80]

/-- `RngState`, whose type and size no source gives (`10_state.md` R24). DESIGN CHOICE (log entry 1): the number of
a state, so that every generator with finitely or countably many states is one of these. -/
abbrev RngState := Nat

/-- `RngNext` (R6, decision D16): the byte drawn and the state after the draw. A FREE VALUE (log entry 2): no body,
so nothing can be proved of which byte comes. -/
opaque rngNext : RngState → Byte × RngState

/-- The open parameters of R6 that are data: a configuration, fixed for a machine, which a claim may name or quantify
over (log entry 26). -/
structure Parameters where
  /-- `PC_RESET`, the value of `pc` after reset (decision D1). -/
  pcReset : Addr
  /-- `STEP`, the bytes from one instruction to the next (decision D2). -/
  step : Addr
  /-- `FONT[0..79]`, the reset contents of 0x000 to 0x04F (decision D9). -/
  font : Font
  /-- `RNG_SEED`, the generator's state after reset (decision D16). -/
  rngSeed : RngState
  deriving DecidableEq, Repr

/-- The defaults of R6. `RNG_SEED` has none: it is an argument. DESIGN CHOICE (log entries 4 and 5): the spec's own
defaults for the others. -/
def Parameters.default (rngSeed : RngState) : Parameters where
  pcReset := 0x200
  step := 2
  font := ⟨fontBytes.toArray, rfl⟩
  rngSeed := rngSeed

end Sys2Proof.Config
end

