-- ==== Sys2Proof/Machine/State.lean ====
section
/-! DEFINITION. The state of the core (`10_state.md` R10 to R30), plain data, and its value after reset (R28); the
fault records the latch `ERR` holds (`60_exceptions.md` R161); and the two reasons for which a step could stop, which
this machine never uses: every fault of the spec is a next state (R143, R165, R166). -/

namespace Sys2Proof.Machine

/-- The kind of the access that left the address space (`60_exceptions.md` R161, R163). -/
inductive AccessKind where
  | fetch
  | data
  | load
  deriving DecidableEq, Repr

/-- A fault record: a cause and its information (R161). `len` is a number of bytes; LoadProgram's is the length of
the string it was given, so it has no width (log entry 21). -/
inductive FaultRecord where
  /-- Decode of a word that is no instruction (R162). -/
  | unrecognizedOpcode (word : Word)
  /-- A range of memory that is not wholly inside 0x000 to 0xFFF (R163). -/
  | addressSpaceViolation (kind : AccessKind) (addr : Addr) (len : Nat)
  /-- 2nnn with `SP = 16` (R167). -/
  | stackOverflow
  /-- 00EE with `SP = 0` (R168). -/
  | stackUnderflow
  deriving DecidableEq, Repr

/-- Memory: the bytes that differ from their reset contents, by rising address (`Memory.wf` in Ops.lean states the
form, `Memory.unlisted` what an unlisted address reads as, given the font). -/
abbrev Memory := List Host.Cell

/-- Every piece of state the spec gives the machine (R10 to R30), and the configuration it runs under. -/
structure State where
  /-- The open parameters of R6: the MODEL's own field, not the spec's state (R26). Nothing changes it, so a claim over
  every state is a claim over every configuration (log entry 26). -/
  params : Config.Parameters
  /-- The general registers `V[0]` to `V[15]` (R10); `V[15]` is `VF`, the only flag (R11). -/
  v : Vector Byte 16
  /-- The index register `I` (R14). -/
  i : Addr
  /-- The program counter (R15). -/
  pc : Addr
  /-- The delay timer `DT` (R17). -/
  dt : Byte
  /-- The sound timer `ST` (R17). -/
  st : Byte
  /-- The stack pointer `SP`, the number of slots in use, 0 to 16 (R18). -/
  sp : Fin 17
  /-- The call stack `STACK[0]` to `STACK[15]` (R18). -/
  stack : Vector Addr 16
  /-- The memory `MEM[0x000]` to `MEM[0xFFF]` (R21). -/
  mem : Memory
  /-- The framebuffer rows `FB[0]` to `FB[31]`; column `c` of a row is its bit `63 − c` (R22). -/
  fb : Vector RowBits 32
  /-- The keypad `KEY`: bit `k` is 1 while key `k` is pressed (R23). -/
  key : BitVec 16
  /-- The generator state `RNG` (R24). -/
  rng : Config.RngState
  /-- The fault latch `ERR`: none, or the first fault since reset (R25). -/
  err : Option FaultRecord
  deriving DecidableEq, Repr

/-- The reasons for which a step could stop with a fault. NOBODY RAISES ONE, so there is no constructor: each fault of
the spec is taken, as the latch of R165 sets it, in a next state, and a halted step answers its own state (R166).
Safe: nothing is left out by it (log entry 14). -/
inductive Fault
  deriving DecidableEq, Repr

/-- The reasons for which a step could refuse. -/
inductive Refusal where
  /-- An instruction without a meaning, raised by its arm of `exec` alone; no arm is left that raises it. Safe. -/
  | notModelled (mnemonic : String)
  deriving DecidableEq, Repr

/-- What a step of this machine answers. -/
abbrev Answer := Host.Outcome State Fault Refusal

/-- The machine right after reset under a configuration (R28, R180): registers, timers, stack and framebuffer zero,
keys released, `pc` at `PC_RESET`, memory at its reset contents (nothing listed), the generator at `RNG_SEED`, no
fault. -/
def State.resetWith (p : Config.Parameters) : State where
  params := p
  v := Vector.replicate 16 0
  i := 0
  pc := p.pcReset
  dt := 0
  st := 0
  sp := 0
  stack := Vector.replicate 16 0
  mem := []
  fb := Vector.replicate 32 0
  key := 0
  rng := p.rngSeed
  err := none

/-- The machine right after reset at the defaults of R6. DESIGN CHOICE (log entry 3): `RNG_SEED` has no default, and
the generator state numbered 0 stands for it. -/
def State.reset : State :=
  State.resetWith (Config.Parameters.default 0)

end Sys2Proof.Machine
end

