-- ==== Sys2Proof/Machine/Ops.lean ====
section
/-! DEFINITION. The named operations over registers, memory, stack, generator and fault latch, and taking a fault:
the one home of every read and write the instructions make (the blocks of `50_host_interface.md` R154). -/

namespace Sys2Proof.Machine

/-! ## Registers -/

/-- Read of `V[x]` (R10). -/
def State.reg (s : State) (x : RegNum) : Byte :=
  s.v[x.val]

/-- Write of `V[x]` (R10); no register is hardwired. -/
def State.setReg (s : State) (x : RegNum) (b : Byte) : State :=
  { s with v := s.v.set x.val b }

/-- Write of the index register (R14). -/
def State.setI (s : State) (a : Addr) : State :=
  { s with i := a }

/-- Write of the program counter (R15). -/
def State.setPc (s : State) (a : Addr) : State :=
  { s with pc := a }

/-- Write of the delay timer (R17). -/
def State.setDt (s : State) (b : Byte) : State :=
  { s with dt := b }

/-- Write of the sound timer (R17). -/
def State.setSt (s : State) (b : Byte) : State :=
  { s with st := b }

/-- The address of the instruction after this one, `(pc + STEP) mod 4096` (R15). DESIGN CHOICE (log entry 7): the
spec's default policy, all `pc` arithmetic wraps at 12 bits (decision D3). -/
def State.nextPc (s : State) : Addr :=
  s.pc + s.params.step

/-- `Next`: `pc <- (pc + STEP) mod 4096` (R15). -/
def State.advance (s : State) : State :=
  s.setPc s.nextPc

/-- `Skip`: `pc <- (pc + 2·STEP) mod 4096` (R15); the skipped word is not looked at (`40_flow.md` R88). -/
def State.skip (s : State) : State :=
  s.setPc (s.pc + s.params.step + s.params.step)

/-- One step or two, by the skip condition (R84 to R87, R131, R132). -/
def State.skipIf (s : State) (c : Bool) : State :=
  if c then s.skip else s.advance

/-! ## Memory -/

/-- What an address reads as that nothing has written: the font at 0x000 to 0x04F, `MEM_FILL` elsewhere (R28,
`20_memory.md` R41, R44). -/
def Memory.unlisted (f : Config.Font) (a : Nat) : Byte :=
  if h : Config.fontBase.toNat ≤ a ∧ a - Config.fontBase.toNat < 80 then f[a - Config.fontBase.toNat]'h.2
  else Config.memFill

/-- The listed byte of an address, if there is one. -/
def Memory.find (a : Nat) : Memory → Option Byte
  | [] => none
  | c :: m => if c.1 = a then some c.2 else Memory.find a m

/-- `MEM[a]` (R21): every address has a byte, and a read changes nothing (`20_memory.md` R43). -/
def Memory.read (m : Memory) (f : Config.Font) (a : Addr) : Byte :=
  (Memory.find a.toNat m).getD (Memory.unlisted f a.toNat)

/-- A cell put in its place by address. -/
def Memory.insertCell (c : Host.Cell) : Memory → Memory
  | [] => [c]
  | d :: m => if c.1 < d.1 then c :: d :: m else d :: Memory.insertCell c m

/-- `MEM[a] <- b`: every byte is writable, the font's included (`20_memory.md` R42). The canonical form is kept:
writing what the unlisted address reads as removes its cell. -/
def Memory.write (m : Memory) (f : Config.Font) (a : Addr) (b : Byte) : Memory :=
  let others := m.filter (fun c => c.1 != a.toNat)
  if b = Memory.unlisted f a.toNat then others else Memory.insertCell (a.toNat, b) others

/-- The canonical form: addresses inside the space and strictly rising, no cell equal to what its unlisted address
reads as. -/
def Memory.wf (f : Config.Font) : Memory → Bool
  | [] => true
  | c :: m =>
    decide (c.1 ≤ Config.addrMax) && decide (c.2 ≠ Memory.unlisted f c.1) && m.all (fun d => decide (c.1 < d.1))
      && Memory.wf f m

/-- The `n` bytes at `a` and up, the lowest address first. -/
def Memory.bytes (m : Memory) (f : Config.Font) (a : Addr) : Nat → List Byte
  | 0 => []
  | n + 1 => m.read f a :: Memory.bytes m f (a + 1) n

/-- The bytes of a list written at `a` and up, the first at the lowest address. -/
def Memory.writeBytes (m : Memory) (f : Config.Font) (a : Addr) : List Byte → Memory
  | [] => m
  | b :: bs => Memory.writeBytes (m.write f a b) f (a + 1) bs

/-- The whole-range check of `20_memory.md` R46 and R47: the sum is an ordinary integer, a range never wraps, and a
range of length 0 never faults (R48). -/
def rangeLeaves (a : Addr) (n : Nat) : Bool :=
  decide (0 < n) && decide (a.toNat + n - 1 > Config.addrMax)

/-- `MemRead(a, n)` (`20_memory.md` R46). -/
def memRead (m : Memory) (f : Config.Font) (a : Addr) (n : Nat) : Except FaultRecord (List Byte) :=
  if rangeLeaves a n then .error (.addressSpaceViolation .data a n) else .ok (m.bytes f a n)

/-- `MemWrite(a, n, bs)` with `n` the length of `bs` (`20_memory.md` R47): checked whole and first, no partial
store. -/
def memWrite (m : Memory) (f : Config.Font) (a : Addr) (bs : List Byte) : Except FaultRecord Memory :=
  if rangeLeaves a bs.length then .error (.addressSpaceViolation .data a bs.length)
  else .ok (m.writeBytes f a bs)

/-- `Fetch(a)` (`20_memory.md` R45): two bytes, the lower address high; the only faulting address is 0xFFF; a fetch
changes nothing. -/
def fetch (m : Memory) (f : Config.Font) (a : Addr) : Except FaultRecord Word :=
  if a.toNat + 1 > Config.addrMax then .error (.addressSpaceViolation .fetch a 2)
  else .ok (wordOfBytes (m.read f a) (m.read f (a + 1)))

/-- The byte of a state's memory at an address. -/
def State.byte (s : State) (a : Addr) : Byte :=
  s.mem.read s.params.font a

/-- A fetch from a state's memory. -/
def State.fetchAt (s : State) (a : Addr) : Except FaultRecord Word :=
  fetch s.mem s.params.font a

/-- A state's memory with bytes written at `a` and up. -/
def State.store (s : State) (a : Addr) (bs : List Byte) : State :=
  { s with mem := s.mem.writeBytes s.params.font a bs }

/-! ## The call stack -/

/-- `Push(v)` (R19): legal exactly when `SP ≤ 15`, so sixteen pushes in a row succeed. -/
def State.push (s : State) (a : Addr) : Except FaultRecord State :=
  if h : s.sp.val < Config.stackDepth then
    .ok { s with
      stack := s.stack.set s.sp.val a h
      sp := ⟨s.sp.val + 1, Nat.succ_lt_succ h⟩ }
  else .error .stackOverflow

/-- `Pop()` (R20): the newest slot in use; the popped slot keeps its contents. -/
def State.pop (s : State) : Except FaultRecord (Addr × State) :=
  if 0 < s.sp.val then
    .ok (s.stack[s.sp.val - 1],
      { s with sp := ⟨s.sp.val - 1, Nat.lt_of_le_of_lt (Nat.sub_le _ _) s.sp.isLt⟩ })
  else .error .stackUnderflow

/-! ## The generator -/

/-- One draw: the byte and the state with the generator advanced (`41_alu.md` R101). -/
def State.draw (s : State) : Byte × State :=
  ((Config.rngNext s.rng).1, { s with rng := (Config.rngNext s.rng).2 })

/-! ## Faults -/

/-- `raise C(info)`: TAKING A FAULT (`60_exceptions.md` R165). It sets the latch and does nothing else: no register is
saved, control goes nowhere, `pc` stays at the faulting instruction. There is no return from a fault: the only way on
is the Reset transaction (R169, R181). -/
def State.raise (s : State) (e : FaultRecord) : State :=
  { s with err := some e }

/-- The core is halted while the latch is set (R166). -/
def State.halted (s : State) : Bool :=
  s.err.isSome

/-- How an instruction ends that can fault: with its result, or with the fault taken and nothing else changed. -/
def State.complete (s : State) (r : Except FaultRecord State) : Answer :=
  match r with
  | .ok t => .next t
  | .error e => .next (s.raise e)

/-- The code of what the latch holds, 0 for no fault (R161). -/
def errCode : Option FaultRecord → Nat
  | none => 0
  | some (.unrecognizedOpcode _) => 1
  | some (.addressSpaceViolation _ _ _) => 2
  | some .stackOverflow => 3
  | some .stackUnderflow => 4

/-- The fault of a word the decoder refuses (R162). -/
def faultOfDecodeError (w : Word) : DecodeError → FaultRecord
  | .unrecognizedOpcode w' => .unrecognizedOpcode w'
  | .truncated => .unrecognizedOpcode w

/-- The second stage of a step: a word decoded, or the fault of R162. -/
def decodeStage (w : Word) : Except FaultRecord Instr :=
  (decode w).mapError (faultOfDecodeError w)

/-- The first two stages of a step, in their order: fetch at `pc`, then decode (`50_host_interface.md` R143,
`60_exceptions.md` R164). -/
def State.fetchInstr (s : State) : Except FaultRecord Instr :=
  (s.fetchAt s.pc).bind decodeStage

/-- A state that fetches a given instruction next: its bytes stand at `pc`, no fault is latched, and a `pc` of 0xFFF,
from which nothing can be fetched, is first set to `PROG_BASE`. From reset only the bytes change (log entry 18). -/
def State.withBytesAtPc (s : State) (bs : List Byte) : State :=
  let at_ : Addr := if s.pc.toNat = Config.addrMax then Config.progBase else s.pc
  { s with pc := at_, err := none, mem := s.mem.writeBytes s.params.font at_ bs }

end Sys2Proof.Machine
end

