-- ==== Sys2Proof/Machine/Flags.lean ====
section
/-! DEFINITION. Every flag computation of the machine. The only flag is `VF = V[15]`, written 0 or 1 in all its 8
bits by six instructions (`10_state.md` R11), after the result (R12). -/

namespace Sys2Proof.Machine

/-- The number of the flag register `VF` (R11). -/
def vf : RegNum := 15

/-- A flag as a register's contents: 0x01 or 0x00 (R11). -/
def flagByte (c : Bool) : Byte :=
  if c then 0x01 else 0x00

/-- Carry out of an 8-bit add: the true sum exceeds 255 (`41_alu.md` R96, R102). -/
def carryOut (a b : Byte) : Bool :=
  decide (a.toNat + b.toNat > 255)

/-- No borrow: the minuend is not smaller than the subtrahend, so equal operands give 1 (R97, R99, R102). -/
def noBorrow (minuend subtrahend : Byte) : Bool :=
  decide (minuend.toNat ≥ subtrahend.toNat)

/-- The bit a right shift by one loses, bit 0 (R98). -/
def shiftedOutRight (a : Byte) : Bool :=
  a.getLsbD 0

/-- The bit a left shift by one loses, bit 7 (R100). -/
def shiftedOutLeft (a : Byte) : Bool :=
  a.getLsbD 7

/-- `VF <- flag` (R11). -/
def State.setFlag (s : State) (c : Bool) : State :=
  s.setReg vf (flagByte c)

/-- The result written first and the flag last, so that with `x = 15` the flag wins (R12). DESIGN CHOICE (log entry
8): the order is the spec's decision D7. -/
def State.setResultFlag (s : State) (x : RegNum) (result : Byte) (c : Bool) : State :=
  (s.setReg x result).setFlag c

end Sys2Proof.Machine
end

