-- ==== Sys2Proof/Machine/Operands.lean ====
section
/-! DEFINITION. Every operand form: values widened to an address, the range at the index register, the register
lists of the bulk transfers, decimal digits, the keypad predicates, and a sprite row as a mask. -/

namespace Sys2Proof.Machine

/-- `zext_12`: a byte as a 12-bit value (`00_scope.md` section 4.1). -/
def zext12 (b : Byte) : Addr :=
  b.setWidth 12

/-- The bytes of the range at the index register, `MemRead(I, n)`: the one data addressing mode (`42_index_memory.md`
R116). -/
def State.readAtI (s : State) (n : Nat) : Except FaultRecord (List Byte) :=
  memRead s.mem s.params.font s.i n

/-- The range at the index register written, `MemWrite(I, n, bs)`; `I` is not changed (R116). -/
def State.writeAtI (s : State) (bs : List Byte) : Except FaultRecord State :=
  (memWrite s.mem s.params.font s.i bs).map (fun m => { s with mem := m })

/-- The registers `V[0]` to `V[x]`, `V[0]` first: `x + 1` of them (R114). -/
def State.regsUpTo (s : State) (x : RegNum) : List Byte :=
  s.v.toList.take (x.val + 1)

/-- The bytes of a list written to `V[k]`, `V[k + 1]`, and so on; there is no register above `V[15]` (R115). -/
def State.setRegsFrom (s : State) : Nat → List Byte → State
  | _, [] => s
  | k, b :: bs => if h : k < 16 then (s.setReg ⟨k, h⟩ b).setRegsFrom (k + 1) bs else s

/-- The address of the glyph of a value: `FONT_BASE + 5·v`, the whole 8-bit value unmasked (R112). DESIGN CHOICE (log
entry 10): decision D10. -/
def glyphAddr (v : Byte) : Addr :=
  Config.fontBase + BitVec.ofNat 12 Config.fontGlyphBytes * zext12 v

/-- Hundreds, tens and ones of a value, as the digits' values (R113). -/
def decimalDigits (v : Byte) : List Byte :=
  [BitVec.ofNat 8 (v.toNat / 100), BitVec.ofNat 8 (v.toNat / 10 % 10), BitVec.ofNat 8 (v.toNat % 10)]

/-- `Pressed(v)`: there is a key with this code and it is pressed (`44_keypad_timers.md` R130). DESIGN CHOICE (log
entry 13): a code above 15 is no pressed key, decision D15. -/
def State.pressed (s : State) (v : Byte) : Bool :=
  decide (v.toNat ≤ 15) && s.key.getLsbD v.toNat

/-- The least pressed key, if any is pressed (R133). DESIGN CHOICE (log entry 12): decision D14. -/
def State.lowestKey (s : State) : Option Nat :=
  (List.range 16).find? (fun k => s.key.getLsbD k)

/-- `pixel(r, c)`: bit `63 − c` of framebuffer row `r` (`10_state.md` R22). -/
def State.pixel (s : State) (r : Fin 32) (c : Fin 64) : Bool :=
  s.fb[r.val].getLsbD (63 - c.val)

/-- `ror64(v, k)` (`00_scope.md` section 4.1). -/
def ror64 (v : RowBits) (k : Nat) : RowBits :=
  (v >>> (k % 64)) ||| (v <<< (64 - k % 64))

/-- `RowMask(b, cx)`: one sprite row with its leftmost pixel, bit 7, at column `cx`, wrapping at the right edge
(`43_display.md` R121). DESIGN CHOICE (log entry 11): column `c` at bit `63 − c`, decision D12. -/
def rowMask (b : Byte) (cx : Nat) : RowBits :=
  ror64 (b.setWidth 64 <<< 56) cx

/-- The loop of Dxyn over its sprite rows (`43_display.md` R122): each row exclusive-ored into the framebuffer row
`row mod 32`, and `hit` set once a set pixel is erased. -/
def drawRows (cx : Nat) : List Byte → Nat → Vector RowBits 32 × Bool → Vector RowBits 32 × Bool
  | [], _, acc => acc
  | b :: bs, row, (fb, hit) =>
    have h : row % 32 < 32 := Nat.mod_lt _ (by decide)
    let m := rowMask b cx
    let old := fb[row % 32]
    drawRows cx bs (row + 1) (fb.set (row % 32) (old ^^^ m), hit || (old &&& m) != 0)

end Sys2Proof.Machine
end

