-- ==== Sys2Proof/Machine/Alu.lean ====
section
/-! DEFINITION. Register, arithmetic, logic, shift and random instructions (`41_alu.md` R90 to R103): unsigned 8-bit
values with wraparound (R102). None faults, none touches memory, every one ends with `Next`. Only the arithmetic with
a flag and the shifts write `VF` implicitly (`10_state.md` R13, log entry 9). -/

namespace Sys2Proof.Machine

/-- 6xkk, load immediate (R90). -/
def execLdVxKk (x : RegNum) (kk : Byte) (s : State) : Answer :=
  .next (s.setReg x kk).advance

/-- 7xkk, add immediate, no flag (R91). -/
def execAddVxKk (x : RegNum) (kk : Byte) (s : State) : Answer :=
  .next (s.setReg x (s.reg x + kk)).advance

/-- 8xy0, move (R92). -/
def execLdVxVy (x y : RegNum) (s : State) : Answer :=
  .next (s.setReg x (s.reg y)).advance

/-- 8xy1, or (R93). -/
def execOrVxVy (x y : RegNum) (s : State) : Answer :=
  .next (s.setReg x (s.reg x ||| s.reg y)).advance

/-- 8xy2, and (R94). -/
def execAndVxVy (x y : RegNum) (s : State) : Answer :=
  .next (s.setReg x (s.reg x &&& s.reg y)).advance

/-- 8xy3, exclusive or (R95). -/
def execXorVxVy (x y : RegNum) (s : State) : Answer :=
  .next (s.setReg x (s.reg x ^^^ s.reg y)).advance

/-- 8xy4, add with carry out (R96). -/
def execAddVxVy (x y : RegNum) (s : State) : Answer :=
  .next (s.setResultFlag x (s.reg x + s.reg y) (carryOut (s.reg x) (s.reg y))).advance

/-- 8xy5, subtract `V[y]` from `V[x]`, flag 1 when no borrow occurred (R97). -/
def execSubVxVy (x y : RegNum) (s : State) : Answer :=
  .next (s.setResultFlag x (s.reg x - s.reg y) (noBorrow (s.reg x) (s.reg y))).advance

/-- 8xy7, subtract `V[x]` from `V[y]` into `V[x]`, flag 1 when no borrow occurred (R99). -/
def execSubnVxVy (x y : RegNum) (s : State) : Answer :=
  .next (s.setResultFlag x (s.reg y - s.reg x) (noBorrow (s.reg y) (s.reg x))).advance

/-- 8xy6, logical shift right by one of `V[x]` in place; `y` is ignored (R98, `30_encoding.md` R67). -/
def execShrVx (x : RegNum) (s : State) : Answer :=
  .next (s.setResultFlag x (s.reg x >>> 1) (shiftedOutRight (s.reg x))).advance

/-- 8xyE, shift left by one of `V[x]` in place; `y` is ignored (R100, `30_encoding.md` R67). -/
def execShlVx (x : RegNum) (s : State) : Answer :=
  .next (s.setResultFlag x (s.reg x <<< 1) (shiftedOutLeft (s.reg x))).advance

/-- Cxkk, random byte and mask (R101): exactly one draw, also when `kk = 0`. -/
def execRndVxKk (x : RegNum) (kk : Byte) (s : State) : Answer :=
  .next (s.draw.2.setReg x (s.draw.1 &&& kk)).advance

end Sys2Proof.Machine
end

