-- ==== Sys2Proof/Machine/Display.lean ====
section
/-! DEFINITION. Framebuffer instructions (`43_display.md` R120 to R124). -/

namespace Sys2Proof.Machine

/-- 00E0, clear screen; `VF` is not touched (R120). -/
def execCls (s : State) : Answer :=
  .next { s with fb := Vector.replicate 32 0 }.advance

/-- The framebuffer and the collision flag a sprite leaves, drawn from a state with its bytes, column and row read
beforehand (R122, `10_state.md` R12). -/
def State.drawn (s : State) (col row : Byte) (bs : List Byte) : State :=
  let r := drawRows (col.toNat % 64) bs (row.toNat % 32) (s.fb, false)
  ({ s with fb := r.1 }).setFlag r.2

/-- Dxyn, draw sprite (R122): `n` bytes at `I`, checked whole and first; with `n = 0` nothing is read or drawn and
`VF` is 0. -/
def execDrwVxVyN (x y : RegNum) (n : BitVec 4) (s : State) : Answer :=
  s.complete ((s.readAtI n.toNat).map (fun bs => (s.drawn (s.reg x) (s.reg y) bs).advance))

end Sys2Proof.Machine
end

