-- ==== Sys2Proof/Machine/Flow.lean ====
section
/-! DEFINITION. Control transfer (`40_flow.md` R80 to R89): return, jump, call, computed jump and the four register
skips. No delay slot, no link register; a target needs no alignment and any 12-bit value is a legal one (R88). -/

namespace Sys2Proof.Machine

/-- 00EE, return (R80): `pc` is the popped slot and is not advanced further. StackUnderflow at `SP = 0`. -/
def execRet (s : State) : Answer :=
  s.complete (s.pop.map (fun r => r.2.setPc r.1))

/-- 1nnn, jump (R81). -/
def execJpAddr (addr : Addr) (s : State) : Answer :=
  .next (s.setPc addr)

/-- 2nnn, call (R82): the address of the next instruction is pushed. StackOverflow at `SP = 16`. -/
def execCallAddr (addr : Addr) (s : State) : Answer :=
  s.complete ((s.push s.nextPc).map (fun t => t.setPc addr))

/-- Bnnn, jump plus `V[0]` (R83). DESIGN CHOICE (log entry 7): the sum wraps at 12 bits, decision D3. -/
def execJpV0Addr (addr : Addr) (s : State) : Answer :=
  .next (s.setPc (addr + zext12 (s.reg 0)))

/-- 3xkk, skip if equal to an immediate (R84). -/
def execSeVxKk (x : RegNum) (kk : Byte) (s : State) : Answer :=
  .next (s.skipIf (s.reg x == kk))

/-- 4xkk, skip if not equal to an immediate (R85). -/
def execSneVxKk (x : RegNum) (kk : Byte) (s : State) : Answer :=
  .next (s.skipIf (s.reg x != kk))

/-- 5xy0, skip if two registers are equal (R86). -/
def execSeVxVy (x y : RegNum) (s : State) : Answer :=
  .next (s.skipIf (s.reg x == s.reg y))

/-- 9xy0, skip if two registers differ (R87). -/
def execSneVxVy (x y : RegNum) (s : State) : Answer :=
  .next (s.skipIf (s.reg x != s.reg y))

end Sys2Proof.Machine
end

