-- ==== Sys2Proof/Machine/IndexMemory.lean ====
section
/-! DEFINITION. Index register, load and store instructions (`42_index_memory.md` R110 to R116). Loads and stores
leave `I` unchanged (R116, log entry 9); a range that leaves the address space faults before anything is written. -/

namespace Sys2Proof.Machine

/-- Annn, load index (R110). -/
def execLdIAddr (addr : Addr) (s : State) : Answer :=
  .next (s.setI addr).advance

/-- Fx1E, add to index, no flag (R111). DESIGN CHOICE (log entry 7): the sum wraps at 12 bits, decision D3. -/
def execAddIVx (x : RegNum) (s : State) : Answer :=
  .next (s.setI (s.i + zext12 (s.reg x))).advance

/-- Fx29, load the address of a glyph (R112). -/
def execLdFVx (x : RegNum) (s : State) : Answer :=
  .next (s.setI (glyphAddr (s.reg x))).advance

/-- Fx33, store the three decimal digits (R113). -/
def execLdBVx (x : RegNum) (s : State) : Answer :=
  s.complete ((s.writeAtI (decimalDigits (s.reg x))).map State.advance)

/-- Fx55, store `V[0]` to `V[x]` (R114). -/
def execLdMemVx (x : RegNum) (s : State) : Answer :=
  s.complete ((s.writeAtI (s.regsUpTo x)).map State.advance)

/-- Fx65, load `V[0]` to `V[x]` (R115). -/
def execLdVxMem (x : RegNum) (s : State) : Answer :=
  s.complete ((s.readAtI (x.val + 1)).map (fun bs => (s.setRegsFrom 0 bs).advance))

end Sys2Proof.Machine
end

