-- ==== Sys2Proof/Machine/KeypadTimers.lean ====
section
/-! DEFINITION. Keypad and timer instructions (`44_keypad_timers.md` R130 to R137). None faults, none touches
memory; the keypad is read only. -/

namespace Sys2Proof.Machine

/-- Ex9E, skip if the key is pressed (R131). -/
def execSkpVx (x : RegNum) (s : State) : Answer :=
  .next (s.skipIf (s.pressed (s.reg x)))

/-- ExA1, skip if the key is not pressed (R132). -/
def execSknpVx (x : RegNum) (s : State) : Answer :=
  .next (s.skipIf (!s.pressed (s.reg x)))

/-- Fx07, read the delay timer (R134). -/
def execLdVxDt (x : RegNum) (s : State) : Answer :=
  .next (s.setReg x s.dt).advance

/-- Fx15, write the delay timer (R135). -/
def execLdDtVx (x : RegNum) (s : State) : Answer :=
  .next (s.setDt (s.reg x)).advance

/-- Fx18, write the sound timer (R136). -/
def execLdStVx (x : RegNum) (s : State) : Answer :=
  .next (s.setSt (s.reg x)).advance

/-- Fx0A, wait for a key (R133): the lowest pressed key's code and `Next`, or, with no key pressed, no change at all,
so that the next step runs the same word again. -/
def execLdVxK (x : RegNum) (s : State) : Answer :=
  match s.lowestKey with
  | some k => .next (s.setReg x (BitVec.ofNat 8 k)).advance
  | none => .next s

end Sys2Proof.Machine
end

