-- ==== Sys2Proof/Machine/Step.lean ====
section
/-! DEFINITION. The Step transaction (`50_host_interface.md` R143), and the placing of an instruction where the next
step fetches it. -/

namespace Sys2Proof.Machine

/-- One Step transaction: the halt check, then fetch, then decode, then the instruction's rule (R143, R164). A fault
of a stage is taken and ends the transaction. -/
def step (s : State) : Host.Outcome State Fault Refusal :=
  if s.halted then .next s
  else
    match s.fetchInstr with
    | .ok i => exec i s
    | .error e => .next (s.raise e)

/-- `s` with a given instruction, numbered as spec/opcode_table.json numbers its bits, where `step` fetches its next
instruction (log entry 18). -/
def State.withFetchWord (s : State) (nbits w : Nat) : State :=
  s.withBytesAtPc (tableWordBytes nbits w)

end Sys2Proof.Machine
end

