-- ==== Sys2Proof/Machine/Transactions.lean ====
section
/-! DEFINITION. The other transactions of the interface (`50_host_interface.md` R141): what the host can do to the
core between two steps, and the Execute transaction. Each is an indivisible change of state, and they form one total
order (R142). -/

namespace Sys2Proof.Machine

/-- Execute(`w`) (R144): decode and execute a word the host supplies, without fetching; a halted core changes
nothing. -/
def execute (w : Word) (s : State) : Answer :=
  if s.halted then .next s
  else
    match decodeStage w with
    | .ok i => exec i s
    | .error e => .next (s.raise e)

/-- Seed(`r`) (R150). -/
def State.seed (r : Config.RngState) (s : State) : State :=
  { s with rng := r }

/-- SetKeys(`k`) (R146): every 16-bit value is legal. -/
def State.setKeys (k : BitVec 16) (s : State) : State :=
  { s with key := k }

/-- A timer counted down by one, stopping at zero (R147, log entry 15). -/
def countDown (b : Byte) : Byte :=
  if b.toNat > 0 then b - 1 else b

/-- Tick (R147): both timers in the one transaction. -/
def State.tick (s : State) : State :=
  { s with dt := countDown s.dt, st := countDown s.st }

/-- LoadProgram(`bs`) (R148): the bytes copied from 0x200 up, or, too long, nothing copied and the fault latched. No
register is written. DEDUCED (log entry 19): on a core that is halted already the first fault is kept (R166). -/
def State.loadProgram (bs : List Byte) (s : State) : State :=
  if Config.progBase.toNat + bs.length > Config.addrMax + 1 then
    if s.halted then s else s.raise (.addressSpaceViolation .load Config.progBase bs.length)
  else s.store Config.progBase bs

/-- The transactions of R141. -/
inductive Transaction where
  | reset
  | seed (r : Config.RngState)
  | loadProgram (bs : List Byte)
  | setKeys (k : BitVec 16)
  | tick
  | step
  | execute (w : Word)
  | observe
  deriving DecidableEq, Repr

/-- What a transaction does. Reset sets every piece of state whatever it was, under the same configuration
(`70_reset_and_hazards.md` R180, R181);
Observe returns any part of the state, which here is the state itself, and changes nothing (R149). -/
def perform (t : Transaction) (s : State) : Answer :=
  match t with
  | .reset => .next (State.resetWith s.params)
  | .seed r => .next (s.seed r)
  | .loadProgram bs => .next (s.loadProgram bs)
  | .setKeys k => .next (s.setKeys k)
  | .tick => .next s.tick
  | .step => step s
  | .execute w => execute w s
  | .observe => .next s

/-- A run: transactions one after the other, each on the state its predecessor left (R142). -/
def performAll : List Transaction → State → Answer
  | [], s => .next s
  | t :: ts, s =>
    match perform t s with
    | .next s' => performAll ts s'
    | .fault r => .fault r
    | .refused r => .refused r

end Sys2Proof.Machine
end

