-- ==== Sys2Proof/Safety.lean ====
section
/-! DEFINITION. The terms claims are stated in: what may change between two states, which places an instruction may
write and which fault it may raise (the spec's access and fault tables), the three ways a run stands still
(`50_host_interface.md` R152), the schedules that keep the host's duties (R151, R183), and a sprite's pixels. -/

namespace Sys2Proof.Machine

/-! ## Frames -/

/-- A place of the state, as small as claims need: a register, a stack slot, a byte, a framebuffer row. -/
inductive Place where
  | reg (x : RegNum)
  | i
  | pc
  | dt
  | st
  | sp
  | slot (k : Fin 16)
  | byte (a : Addr)
  | row (r : Fin 32)
  | key
  | rng
  | err
  | params
  deriving DecidableEq, Repr

/-- The place holds in `t` what it held in `s`. A byte of memory is compared through the model's read of it. -/
def Place.same (s t : State) : Place → Prop
  | .reg x => t.reg x = s.reg x
  | .i => t.i = s.i
  | .pc => t.pc = s.pc
  | .dt => t.dt = s.dt
  | .st => t.st = s.st
  | .sp => t.sp = s.sp
  | .slot k => t.stack[k.val] = s.stack[k.val]
  | .byte a => t.byte a = s.byte a
  | .row r => t.fb[r.val] = s.fb[r.val]
  | .key => t.key = s.key
  | .rng => t.rng = s.rng
  | .err => t.err = s.err
  | .params => t.params = s.params

/-- Every place outside the list holds what it held before. -/
def onlyChanges (s t : State) (w : List Place) : Prop :=
  ∀ p, p ∉ w → p.same s t

/-- Where `pc` is `k` steps on, `(pc + k·STEP) mod 4096`: `Next` is one step, `Skip` two (`10_state.md` R15). -/
def State.stepsOn (s : State) (k : Nat) : Nat :=
  (s.pc.toNat + k * s.params.step.toNat) % 4096

/-- The `n` bytes from `a` up, the range of a store that does not leave the address space. -/
def bytesAt (a : Addr) (n : Nat) : List Place :=
  (List.range n).map (fun k => .byte (a + BitVec.ofNat 12 k))

/-- The registers `V[0]` to `V[x]`. -/
def regsTo (x : RegNum) : List Place :=
  (List.range (x.val + 1)).map (fun k => .reg (Fin.ofNat 16 k))

/-- The `n` framebuffer rows from row `r` down, wrapping at the bottom. -/
def rowsAt (r n : Nat) : List Place :=
  (List.range n).map (fun k => .row (Fin.ofNat 32 (r + k)))

/-- The slot a call writes, `STACK[SP]`; a full stack has none. -/
def slotAt (sp : Fin 17) : List Place :=
  if h : sp.val < 16 then [.slot ⟨sp.val, h⟩] else []

/-- The places each instruction may write, from the spec's access tables (`10_state.md` R10, R11, R14, R15, R17, R18,
R22, R24, `20_memory.md` R51, `60_exceptions.md` R177). -/
def writesOf (i : Instr) (s : State) : List Place :=
  match i with
  | .cls => .pc :: rowsAt 0 32
  | .ret => [.pc, .sp, .err]
  | .jpAddr _ => [.pc]
  | .callAddr _ => .pc :: .sp :: .err :: slotAt s.sp
  | .seVxKk _ _ => [.pc]
  | .sneVxKk _ _ => [.pc]
  | .seVxVy _ _ => [.pc]
  | .sneVxVy _ _ => [.pc]
  | .ldVxKk x _ => [.pc, .reg x]
  | .addVxKk x _ => [.pc, .reg x]
  | .ldVxVy x _ => [.pc, .reg x]
  | .orVxVy x _ => [.pc, .reg x]
  | .andVxVy x _ => [.pc, .reg x]
  | .xorVxVy x _ => [.pc, .reg x]
  | .addVxVy x _ => [.pc, .reg x, .reg 15]
  | .subVxVy x _ => [.pc, .reg x, .reg 15]
  | .subnVxVy x _ => [.pc, .reg x, .reg 15]
  | .shrVx x _ => [.pc, .reg x, .reg 15]
  | .shlVx x _ => [.pc, .reg x, .reg 15]
  | .ldIAddr _ => [.pc, .i]
  | .jpV0Addr _ => [.pc]
  | .rndVxKk x _ => [.pc, .reg x, .rng]
  | .drwVxVyN _ y n => .pc :: .reg 15 :: .err :: rowsAt (s.reg y).toNat n.toNat
  | .skpVx _ => [.pc]
  | .sknpVx _ => [.pc]
  | .ldVxDt x => [.pc, .reg x]
  | .ldDtVx _ => [.pc, .dt]
  | .ldStVx _ => [.pc, .st]
  | .ldVxK x => [.pc, .reg x]
  | .addIVx _ => [.pc, .i]
  | .ldFVx _ => [.pc, .i]
  | .ldBVx _ => .pc :: .err :: bytesAt s.i 3
  | .ldMemVx x => .pc :: .err :: bytesAt s.i (x.val + 1)
  | .ldVxMem x => .pc :: .err :: regsTo x

/-- The six instructions that write `VF` as a side effect (R11). -/
def writesFlag : Instr → Bool
  | .addVxVy _ _ | .subVxVy _ _ | .subnVxVy _ _ | .shrVx _ _ | .shlVx _ _ | .drwVxVyN _ _ _ => true
  | _ => false

/-- `VF` is the named destination of the instruction: its `x` register, or one of the registers of a bulk load
(R10, R13). -/
def namesFlagAsDestination : Instr → Bool
  | .ldVxKk x _ | .addVxKk x _ | .ldVxVy x _ | .orVxVy x _ | .andVxVy x _ | .xorVxVy x _ | .addVxVy x _
  | .subVxVy x _ | .subnVxVy x _ | .shrVx x _ | .shlVx x _ | .rndVxKk x _ | .ldVxDt x | .ldVxK x | .ldVxMem x =>
    x == 15
  | _ => false

/-! ## Faults -/

/-- The fault of its own an instruction raises in a state, if any (R163, R167, R168, R177). -/
def ownFault (i : Instr) (s : State) : Option FaultRecord :=
  match i with
  | .callAddr _ => if s.sp.val = 16 then some .stackOverflow else none
  | .ret => if s.sp.val = 0 then some .stackUnderflow else none
  | .drwVxVyN _ _ n =>
    if 0 < n.toNat ∧ s.i.toNat + n.toNat - 1 > 0xFFF then some (.addressSpaceViolation .data s.i n.toNat) else none
  | .ldBVx _ => if s.i.toNat + 2 > 0xFFF then some (.addressSpaceViolation .data s.i 3) else none
  | .ldMemVx x =>
    if s.i.toNat + x.val > 0xFFF then some (.addressSpaceViolation .data s.i (x.val + 1)) else none
  | .ldVxMem x =>
    if s.i.toNat + x.val > 0xFFF then some (.addressSpaceViolation .data s.i (x.val + 1)) else none
  | _ => none

/-- The fault a step of a core that is not halted raises, if any: the first met of fetch, decode, execute (R143). -/
def stepFault (s : State) : Option FaultRecord :=
  if s.pc = 0xFFF then some (.addressSpaceViolation .fetch 0xFFF 2)
  else
    match decode (s.byte s.pc ++ s.byte (s.pc + 1)) with
    | .error _ => some (.unrecognizedOpcode (s.byte s.pc ++ s.byte (s.pc + 1)))
    | .ok i => ownFault i s

/-- The fault a transaction raises on a core that is not halted, if any: the complete table of R162, R163, R167, R168. -/
def transactionFault (tr : Transaction) (s : State) : Option FaultRecord :=
  match tr with
  | .step => stepFault s
  | .execute w =>
    match decode w with
    | .error _ => some (.unrecognizedOpcode w)
    | .ok i => ownFault i s
  | .loadProgram bs => if bs.length > 3584 then some (.addressSpaceViolation .load 0x200 bs.length) else none
  | .reset => none
  | .seed _ => none
  | .setKeys _ => none
  | .tick => none
  | .observe => none

/-- The word a transaction executes: the word fetched, or the word given; the others execute none. -/
def executedWord (tr : Transaction) (s : State) : Option Word :=
  match tr with
  | .step => (s.fetchAt s.pc).toOption
  | .execute w => some w
  | .reset => none
  | .seed _ => none
  | .loadProgram _ => none
  | .setKeys _ => none
  | .tick => none
  | .observe => none

/-! ## The end of a run (R152) -/

/-- Parked: no fault, and the word at `pc` is a jump to `pc`: the normal end of a program. -/
def State.parked (s : State) : Bool :=
  !s.halted && (match s.fetchAt s.pc with
    | .ok w => w == 0x1#4 ++ s.pc
    | .error _ => false)

/-- Waiting: no fault, the word at `pc` is an Fx0A, and no key is pressed. -/
def State.waiting (s : State) : Bool :=
  !s.halted && (match s.fetchInstr with
    | .ok (.ldVxK _) => s.key == 0
    | _ => false)

/-! ## The host's duties (R151, R183) -/

/-- Where a run stands: booting, with the program loaded or not yet, or running. -/
inductive Phase where
  | booting (loaded : Bool)
  | running
  deriving DecidableEq, Repr

/-- The transactions a host that keeps its duties may perform after Reset, and the phase they lead to: Seed and one
LoadProgram that fits at boot only, Step only after it, SetKeys, Tick and Observe at any point, Reset at any point,
and Execute never, since a run of a program uses Step only (R144, R148, R150, R151, R183). -/
def Phase.admits (p : Phase) (t : Transaction) : Option Phase :=
  match t with
  | .reset => some (.booting false)
  | .seed _ => match p with
    | .booting l => some (.booting l)
    | .running => none
  | .loadProgram bs => match p with
    | .booting false => if bs.length ≤ 3584 then some (.booting true) else none
    | .booting true => none
    | .running => none
  | .setKeys _ => some p
  | .tick => some p
  | .step => match p with
    | .booting false => none
    | .booting true => some .running
    | .running => some .running
  | .execute _ => none
  | .observe => some p

/-- The schedule keeps the host's duties from a phase on. -/
def keepsDuties : Phase → List Transaction → Bool
  | _, [] => true
  | p, t :: ts =>
    match p.admits t with
    | some q => keepsDuties q ts
    | none => false

/-! ## Stack and sprites -/

/-- Pushes of a list, its first element first. -/
def pushAll : List Addr → State → Except FaultRecord State
  | [], s => .ok s
  | a :: as, s => (s.push a).bind (pushAll as)

/-- `n` pops, the first popped value first. -/
def popAll : Nat → State → Except FaultRecord (List Addr × State)
  | 0, s => .ok ([], s)
  | n + 1, s => s.pop.bind (fun r => (popAll n r.2).map (fun q => (r.1 :: q.1, q.2)))

/-- Whether the sprite of Dxyn has a set pixel at row `r`, column `c` of the screen: its pixel `dc` of sprite row
`dr`, where `dr` and `dc` are the distances from its top-left corner, wrapping at the edges (R121, R122). -/
def spritePixel (s : State) (x y : RegNum) (n : BitVec 4) (r : Fin 32) (c : Fin 64) : Bool :=
  let dr := (r.val + 32 - (s.reg y).toNat % 32) % 32
  let dc := (c.val + 64 - (s.reg x).toNat % 64) % 64
  decide (dr < n.toNat) && decide (dc < 8) && (s.byte (s.i + BitVec.ofNat 12 dr)).getLsbD (7 - dc)

end Sys2Proof.Machine
end

