-- ==== Sys2Proof/Certificates/Slice0/Obligations.lean ====
section
/-! DEFINITION. The statements about the model, written from the numbered rules of spec/. Words are given as the
patterns of `30_encoding.md` R64 read as numbers; results as the unbounded integers of the rules, reduced at the
end. A statement about an instruction says: its word decodes to it, it completes from every state that meets the
condition (or takes the fault the rule names), what it writes, and that nothing else changes. -/

open Sys2Proof Sys2Proof.Machine

/-! ## Encoding -/

/-- The worked encodings of `30_encoding.md` section 5, legal and illegal. -/
def Obligations.WorkedEncodingsDecode : Prop :=
  decode 0x1ABC = .ok (.jpAddr 0xABC) ∧ decode 0x00E0 = .ok .cls ∧ decode 0x6A55 = .ok (.ldVxKk 10 0x55) ∧
  decode 0x8AB4 = .ok (.addVxVy 10 11) ∧ decode 0x8A36 = .ok (.shrVx 10 3) ∧
  decode 0xD125 = .ok (.drwVxVyN 1 2 5) ∧ decode 0xF30A = .ok (.ldVxK 3) ∧ decode 0xE19E = .ok (.skpVx 1) ∧
  decode 0x5121 = .error (.unrecognizedOpcode 0x5121) ∧ decode 0x8128 = .error (.unrecognizedOpcode 0x8128) ∧
  decode 0x00E1 = .error (.unrecognizedOpcode 0x00E1) ∧ decode 0xF165 = .ok (.ldVxMem 1) ∧
  decode 0xF166 = .error (.unrecognizedOpcode 0xF166)

/-- Decode and encode agree on every instruction, with every operand at every value; an instruction's bytes in memory
decode to it whatever follows them. -/
def Obligations.DecodeInvertsEncode : Prop :=
  ∀ i : Instr, decode (encode i) = .ok i ∧ ∀ rest, decodeBytes (encodeBytes i ++ rest) = .ok (i, rest)

/-- The other direction: each legal word has one meaning, and no bit of it is lost. -/
def Obligations.EncodeInvertsDecode : Prop :=
  ∀ (w : Word) (i : Instr), decode w = .ok i → encode i = w

/-- R63: `valid` is 1 and the tag is a row's exactly when the word's bits under the row's mask are the row's value,
`valid` is 1 exactly when there is such a row, and the fields are the bits of R61 in every word, legal or not. -/
def Obligations.DecoderIsTheMaskedComparison : Prop :=
  ∀ w : Word,
    (∀ r ∈ opcodeTable,
      (decoderOutput w).valid = true ∧ (decoderOutput w).tag = some r.op.tag ↔ w &&& r.mask = r.value) ∧
    ((decoderOutput w).valid = true ↔ ∃ r ∈ opcodeTable, w &&& r.mask = r.value) ∧
    (decoderOutput w).fields.x.val = w.toNat / 256 % 16 ∧ (decoderOutput w).fields.y.val = w.toNat / 16 % 16 ∧
    (decoderOutput w).fields.n.toNat = w.toNat % 16 ∧ (decoderOutput w).fields.kk.toNat = w.toNat % 256 ∧
    (decoderOutput w).fields.addr.toNat = w.toNat % 4096

/-- R64, R70: the tags number the rows of the opcode table 0 to 33 in its order, the `match` words of R64 in that
order answer the tags 0 to 33, and no tag from 34 up is produced. The numbering is the spec's decision D25, and that
an illegal word has no tag is log entry 23. -/
def Obligations.TagsNumberTheTableRows : Prop :=
  opcodeTable.length = 34 ∧
  (∀ k : Fin 34, (opcodeTable[k.val]?).map (fun r => r.op.tag) = some (BitVec.ofNat 6 k.val)) ∧
  ([0x00E0, 0x00EE, 0x1000, 0x2000, 0x3000, 0x4000, 0x5000, 0x9000, 0x6000, 0x7000, 0x8000, 0x8001, 0x8002, 0x8003,
    0x8004, 0x8005, 0x8007, 0x8006, 0x800E, 0xA000, 0xB000, 0xC000, 0xD000, 0xE09E, 0xE0A1, 0xF007, 0xF015, 0xF018,
    0xF00A, 0xF01E, 0xF029, 0xF033, 0xF055, 0xF065].map fun w : Word => (decoderOutput w).tag) =
      (List.range 34).map (fun k => some (BitVec.ofNat 6 k)) ∧
  ∀ (w : Word) (tag : BitVec 6), (decoderOutput w).tag = some tag → tag.toNat ≤ 33

/-- The illegal words are exactly those of the family table of R66 (`legalWord`, written from it and not from the
masks), and executing one raises `UnrecognizedOpcode` with no other change. -/
def Obligations.IllegalWordsAreTheFamilyTable : Prop :=
  ∀ w : Word,
    (decode w = .error (.unrecognizedOpcode w) ↔ legalWord w = false) ∧
    (∀ s : State, s.err = none → legalWord w = false →
      execute w s = .next { s with err := some (.unrecognizedOpcode w) })

/-! ## The step and its faults -/

/-- R143: a step of a halted core changes nothing; a failed fetch or decode latches its fault; otherwise step is exec
of the instruction that the two bytes at `pc`, high byte first, decode to. Nothing else is done around exec: the
instruction itself writes `pc`. -/
def Obligations.StepRunsTheDecodedInstruction : Prop :=
  ∀ s : State,
    (s.err ≠ none → step s = .next s) ∧
    (s.err = none → s.pc = 0xFFF → step s = .next { s with err := some (.addressSpaceViolation .fetch 0xFFF 2) }) ∧
    (s.err = none → s.pc ≠ 0xFFF →
      (∀ i, decode (s.byte s.pc ++ s.byte (s.pc + 1)) = .ok i → step s = exec i s) ∧
      (∀ e, decode (s.byte s.pc ++ s.byte (s.pc + 1)) = .error e →
        step s = .next { s with err := some (.unrecognizedOpcode (s.byte s.pc ++ s.byte (s.pc + 1))) }))

/-- R45: the fetch is big-endian at every address whose successor is inside the space, odd or even, and faults at
0xFFF alone. -/
def Obligations.FetchIsBigEndian : Prop :=
  ∀ (m : Memory) (f : Config.Font) (a : Addr),
    (a.toNat + 1 ≤ 0xFFF → ∃ w, fetch m f a = .ok w ∧
      w.toNat = 256 * (m.read f a).toNat + (m.read f (BitVec.ofNat 12 (a.toNat + 1))).toNat) ∧
    (0xFFF < a.toNat + 1 → fetch m f a = .error (.addressSpaceViolation .fetch a 2))

/-- R144: Execute decodes and performs the word it is given, and a step equals Execute of the word fetched. -/
def Obligations.ExecuteIsStepWithoutFetch : Prop :=
  ∀ (w : Word) (s : State),
    (s.err = none → ∀ i, decode w = .ok i → execute w s = exec i s) ∧
    (s.err = none → ∀ e, decode w = .error e → execute w s = .next { s with err := some (.unrecognizedOpcode w) }) ∧
    (s.err ≠ none → execute w s = .next s) ∧
    (s.fetchAt s.pc = .ok w → step s = execute w s)

/-- R166: a halted core stays as it is under Step and Execute, Tick and SetKeys still work on their own state, and
no transaction but Reset changes what the latch holds. The latch is the spec's decision D18 (log entry 14). R149:
Observe changes nothing, on a halted core or not (decision D29, log entry 25). -/
def Obligations.HaltedCoreStaysHalted : Prop :=
  ∀ s : State,
    perform .observe s = .next s ∧
    ∀ e : FaultRecord, s.err = some e →
      perform .step s = .next s ∧ (∀ w, perform (.execute w) s = .next s) ∧
      perform .tick s = .next { s with dt := countDown s.dt, st := countDown s.st } ∧
      (∀ k, perform (.setKeys k) s = .next { s with key := k }) ∧
      (∀ tr t, tr ≠ .reset → perform tr s = .next t → t.err = some e)

/-- Every state has a successor under every transaction (`93_implementation_defined.md`: no state is stuck; R143 is
total): the model never stops. -/
def Obligations.EveryTransactionCompletes : Prop :=
  ∀ (s : State), (∃ t, step s = .next t) ∧ (∀ tr, ∃ t, perform tr s = .next t) ∧
    (∀ i : Instr, ∃ t, exec i s = .next t)

/-- R165: whatever transaction raises a fault, the latch is all that changes. Precision is the spec's decision D18
(log entry 14). -/
def Obligations.FaultsArePrecise : Prop :=
  ∀ (tr : Transaction) (s t : State) (e : FaultRecord),
    s.err = none → perform tr s = .next t → t.err = some e → t = { s with err := some e }

/-- R162, R163, R167, R168: on a core that is not halted, each transaction leaves in the latch exactly the fault those
rules list for it (`transactionFault`), and none where they list none. -/
def Obligations.TransactionsRaiseExactlyTheListedFaults : Prop :=
  ∀ (tr : Transaction) (s : State), s.err = none →
    ∃ t, perform tr s = .next t ∧ t.err = transactionFault tr s

/-! ## Invariant and reset -/

/-- The memory keeps its canonical form through every step, from every state that has it (the model's own invariant:
log entry 6). -/
def Obligations.StepKeepsMemoryCanonical : Prop :=
  ∀ s t : State, s.mem.wf s.params.font = true → step s = .next t → t.mem.wf t.params.font = true

/-- The memory keeps its canonical form through every transaction. -/
def Obligations.TransactionsKeepMemoryCanonical : Prop :=
  ∀ (tr : Transaction) (s t : State), s.mem.wf s.params.font = true → perform tr s = .next t →
    t.mem.wf t.params.font = true

/-- The reset state has its memory in canonical form, under every configuration and at the defaults. -/
def Obligations.ResetMemoryIsCanonical : Prop :=
  (∀ p : Config.Parameters, (State.resetWith p).mem.wf p.font = true) ∧
  State.reset.mem.wf State.reset.params.font = true

/-- R180: Reset gives every piece of state its value, whatever the state was and under every configuration of R6:
`PC_RESET`, the font and the seed are the machine's own parameters. -/
def Obligations.ResetGivesTheTableValues : Prop :=
  ∀ s : State, ∃ t, perform .reset s = .next t ∧ t = State.resetWith s.params ∧ t.params = s.params ∧
    (∀ x, t.reg x = 0) ∧ t.i = 0 ∧ t.dt = 0 ∧ t.st = 0 ∧ t.pc = s.params.pcReset ∧ t.sp = 0 ∧
    (∀ k : Fin 16, t.stack[k.val] = 0) ∧
    (∀ a : Addr, a.toNat < 80 → s.params.font[a.toNat]? = some (t.byte a)) ∧
    (∀ a : Addr, 80 ≤ a.toNat → t.byte a = 0) ∧
    (∀ r : Fin 32, t.fb[r.val] = 0) ∧ (∀ k, t.key.getLsbD k = false) ∧ t.rng = s.params.rngSeed ∧ t.err = none

/-- R182, which the spec marks as derived: Reset loads no program, so the first step after it alone fetches 0x0000 at
0x200 and faults, whatever the other parameters are. It rests on `PC_RESET` = 0x200 and on zeroed memory, the spec's
decisions D1 and D20 (log entries 4 and 6). -/
def Obligations.ResetAloneHasNoProgram : Prop :=
  State.reset.pc = 0x200 ∧
  ∀ p : Config.Parameters, p.pcReset = 0x200 →
    (State.resetWith p).fetchAt 0x200 = .ok 0x0000 ∧
    step (State.resetWith p) = .next { State.resetWith p with err := some (.unrecognizedOpcode 0x0000) }

/-- R6, R26: the open parameters are a configuration and not state: no transaction changes one. The host's reset state
has the defaults 0x200 and 2 of R6, decisions D1 and D2 (log entries 4, 26). -/
def Obligations.ParametersNeverChange : Prop :=
  (∀ (tr : Transaction) (s t : State), perform tr s = .next t → t.params = s.params) ∧
  State.reset.params.pcReset = 0x200 ∧ State.reset.params.step = 2 ∧
  ∀ p : Config.Parameters, (State.resetWith p).params = p

/-! ## Host transactions -/

/-- R147: one Tick counts each non-zero timer down by one, leaves a zero timer at zero, and changes nothing else.
Stopping at zero and both in one Tick are decision D17 (log entry 15). -/
def Obligations.TickCountsBothTimersDown : Prop :=
  ∀ s : State, ∃ t, perform .tick s = .next t ∧ t.dt.toNat = s.dt.toNat - 1 ∧ t.st.toNat = s.st.toNat - 1 ∧
    onlyChanges s t [.dt, .st]

/-- R146: SetKeys replaces the sixteen keys by its argument's bits, every value legal; nothing else changes. -/
def Obligations.SetKeysReplacesTheKeypad : Prop :=
  ∀ (s : State) (k : BitVec 16), ∃ t, perform (.setKeys k) s = .next t ∧
    (∀ j : Fin 16, t.key.getLsbD j.val = k.getLsbD j.val) ∧ onlyChanges s t [.key]

/-- R150: Seed replaces the generator's state; nothing else changes. The generator as a parameter is the spec's
decision D16 (log entries 1 and 2). -/
def Obligations.SeedReplacesTheGenerator : Prop :=
  ∀ (s : State) (r : Config.RngState), ∃ t, perform (.seed r) s = .next t ∧ t.rng = r ∧ onlyChanges s t [.rng]

/-- R148: a program that fits is copied byte for byte from 0x200 up and nothing else changes; one that does not is
not copied at all and the load fault is latched, the spec's decision D26 (log entry 14). On a core halted already
the first fault is kept, so such a program changes nothing (R166, log entry 19). -/
def Obligations.LoadProgramCopiesOrFaults : Prop :=
  ∀ (bs : List Byte) (s : State),
    (bs.length ≤ 3584 → ∃ t, perform (.loadProgram bs) s = .next t ∧
      (∀ k : Nat, k < bs.length → bs[k]? = some (t.byte (BitVec.ofNat 12 (0x200 + k)))) ∧
      onlyChanges s t (bytesAt 0x200 bs.length)) ∧
    (3584 < bs.length → s.err = none →
      perform (.loadProgram bs) s = .next { s with err := some (.addressSpaceViolation .load 0x200 bs.length) }) ∧
    (3584 < bs.length → s.err ≠ none → perform (.loadProgram bs) s = .next s)

/-- Boot and run (R151, R183): after Reset, a schedule that keeps the host's duties runs to its end, never latches a
load fault, and keeps the memory canonical. The spec marks R151 as derived; the schedule is the model's predicate
(log entry 19). -/
def Obligations.DutifulRunsComplete : Prop :=
  ∀ (ts : List Transaction) (s : State), keepsDuties (.booting false) ts = true →
    ∃ t, performAll (.reset :: ts) s = .next t ∧ t.mem.wf t.params.font = true ∧
      ∀ a n, t.err ≠ some (.addressSpaceViolation .load a n)

/-! ## Memory ranges (`20_memory.md`) -/

/-- R46, R47: a data range is checked whole and first, its end as an ordinary integer; a read gives its bytes in
order, a write stores its bytes in order and no others. -/
def Obligations.DataRangesAreCheckedWhole : Prop :=
  ∀ (m : Memory) (f : Config.Font) (a : Addr),
    (∀ n : Nat,
      (0 < n ∧ a.toNat + n - 1 > 0xFFF → memRead m f a n = .error (.addressSpaceViolation .data a n)) ∧
      (¬ (0 < n ∧ a.toNat + n - 1 > 0xFFF) → ∃ bs, memRead m f a n = .ok bs ∧ bs.length = n ∧
        ∀ k : Nat, k < n → bs[k]? = some (m.read f (BitVec.ofNat 12 (a.toNat + k))))) ∧
    (∀ bs : List Byte,
      (0 < bs.length ∧ a.toNat + bs.length - 1 > 0xFFF →
        memWrite m f a bs = .error (.addressSpaceViolation .data a bs.length)) ∧
      (¬ (0 < bs.length ∧ a.toNat + bs.length - 1 > 0xFFF) → ∃ m', memWrite m f a bs = .ok m' ∧
        (∀ k : Nat, k < bs.length → bs[k]? = some (m'.read f (BitVec.ofNat 12 (a.toNat + k)))) ∧
        (∀ b : Addr, b.toNat < a.toNat ∨ a.toNat + bs.length ≤ b.toNat → m'.read f b = m.read f b)))

/-! ## Whole-machine rules -/

/-- R137: `DT` changes only by Fx15 and by Tick, `ST` only by Fx18 and by Tick; and by Reset, which gives them their
reset value. Which word writes which timer is the spec's decision D17 (log entry 15). -/
def Obligations.TimersChangeOnlyByTheirWriters : Prop :=
  ∀ (tr : Transaction) (s t : State), perform tr s = .next t →
    (t.dt ≠ s.dt →
      tr = .reset ∨ tr = .tick ∨ ∃ w x, executedWord tr s = some w ∧ decode w = .ok (.ldDtVx x)) ∧
    (t.st ≠ s.st →
      tr = .reset ∨ tr = .tick ∨ ∃ w x, executedWord tr s = some w ∧ decode w = .ok (.ldStVx x))

/-- The access tables of `10_state.md` and `20_memory.md`: each instruction changes only the places they give it.
The spec marks the tables as derived. -/
def Obligations.InstructionsWriteOnlyTheirPlaces : Prop :=
  ∀ (i : Instr) (s t : State), exec i s = .next t → onlyChanges s t (writesOf i s)

/-- R13: an instruction outside the six of R11 leaves `VF` alone unless `VF` is its named destination. And of R11:
each of the six, when it takes no fault, leaves 0 or 1 in the whole register. Decisions D7 and D8 (log entries 8,
9). -/
def Obligations.OnlyTheSixWriteTheFlag : Prop :=
  ∀ (i : Instr) (s t : State), exec i s = .next t →
    (writesFlag i = false → namesFlagAsDestination i = false → t.reg 15 = s.reg 15) ∧
    (writesFlag i = true → ownFault i s = none → t.reg 15 = 0 ∨ t.reg 15 = 1)

/-- R17 "No instruction reads `ST`": two states that differ in `ST` alone step to states that differ in `ST` alone. -/
def Obligations.SoundTimerIsNeverRead : Prop :=
  ∀ (s t : State) (b : Byte), step s = .next t → ∃ b', step { s with st := b } = .next { t with st := b' }

/-- R28: slots at and above `SP` are observed by no instruction before a push overwrites them: two states that agree
below `SP` and in everything else step to states that do. A derived remark of the spec (decision D20). -/
def Obligations.UnusedSlotsAreNeverObserved : Prop :=
  ∀ (s t : State) (stack' : Vector Addr 16),
    (∀ k : Fin 16, k.val < s.sp.val → stack'[k.val] = s.stack[k.val]) → step s = .next t →
    ∃ u : Vector Addr 16, step { s with stack := stack' } = .next { t with stack := u } ∧
      ∀ k : Fin 16, k.val < t.sp.val → u[k.val] = t.stack[k.val]

/-- R19, R20: sixteen slots, last in first out. A push is legal exactly when `SP ≤ 15`, a pop exactly when `SP ≥ 1`;
pushing values that fit and popping as many returns them in reverse order, restores `SP` and changes nothing but
slots that were not in use; a pop changes `SP` alone. Slot width, kept slots and the sixteenth push are decisions
D4, D5, D6 (log entry 16). -/
def Obligations.StackIsLastInFirstOut : Prop :=
  (∀ (s : State) (a : Addr), s.sp.val = 16 → s.push a = .error .stackOverflow) ∧
  (∀ (s : State) (a : Addr) (k : Fin 16), s.sp.val = k.val →
    ∃ t, s.push a = .ok t ∧ t.stack[k.val] = a ∧ t.sp.val = k.val + 1 ∧ onlyChanges s t [.sp, .slot k]) ∧
  (∀ s : State, s.sp.val = 0 → s.pop = .error .stackUnderflow) ∧
  (∀ (s : State) (k : Fin 16), s.sp.val = k.val + 1 →
    ∃ t, s.pop = .ok (s.stack[k.val], t) ∧ t.sp.val = k.val ∧ onlyChanges s t [.sp]) ∧
  (∀ (s : State) (as : List Addr), s.sp.val + as.length ≤ 16 →
    ∃ t u, pushAll as s = .ok t ∧ t.sp.val = s.sp.val + as.length ∧ popAll as.length t = .ok (as.reverse, u) ∧
      u.sp = s.sp ∧ ∀ p : Place, (∀ k : Fin 16, p = .slot k → k.val < s.sp.val) → p.same s u)

/-- R121: pixel `j` of a sprite byte drawn at column `cx` is bit `63 − ((cx + j) mod 64)` of the row mask, and every
other bit is 0; and the source's literal. The bit order is decision D12 (log entry 11). -/
def Obligations.RowMaskRotatesTheByte : Prop :=
  (∀ (b : Byte) (cx : Nat) (j : Fin 8), cx < 64 →
    (rowMask b cx).getLsbD (63 - (cx + j.val) % 64) = b.getLsbD (7 - j.val)) ∧
  (∀ (b : Byte) (cx : Nat) (c : Fin 64), cx < 64 → (∀ j : Fin 8, c.val ≠ (cx + j.val) % 64) →
    (rowMask b cx).getLsbD (63 - c.val) = false) ∧
  rowMask 0xFF 60 = 0xF00000000000000F

/-- A corner case of R122: the same sprite drawn twice at the same place restores the framebuffer; the second draw
reports 1 if the sprite has a set pixel and the first found none of its pixels set. (With `VF` as a coordinate the
place differs, so `x` and `y` are not 15.) It rests on decisions D7 and D12 (log entries 8, 11). -/
def Obligations.DrawingTwiceRestores : Prop :=
  ∀ (x y : RegNum) (n : BitVec 4) (s : State), x ≠ 15 → y ≠ 15 → s.i.toNat + n.toNat ≤ 4096 →
    ∃ t u, exec (.drwVxVyN x y n) s = .next t ∧ exec (.drwVxVyN x y n) t = .next u ∧ u.fb = s.fb ∧
      (t.reg 15 = 0 → (∃ k < n.toNat, s.byte (s.i + BitVec.ofNat 12 k) ≠ 0) → u.reg 15 = 1)

/-- R152: a halted, a parked and a waiting core stand still, every further step answers the same state. The definition
is the spec's decision D28 (log entry 25). R133: a pressed key moves a waiting core one step on, whose `STEP` and wrap
are decisions D2 and D3 (log entries 4, 7). -/
def Obligations.StandingStill : Prop :=
  ∀ s : State,
    (s.halted = true → step s = .next s) ∧
    (s.parked = true → step s = .next s) ∧
    (s.waiting = true → step s = .next s ∧
      ∀ k : BitVec 16, k ≠ 0 → ∃ t, step { s with key := k } = .next t ∧ t.pc.toNat = s.stepsOn 1)

/-- R54: self-modifying code. A bulk store of two bytes or more to the address after it is what the very next fetch
reads: registers `V[0]` and `V[1]` as the word's bytes. The spec marks R54 as derived; `STEP` is decision D2 (log
entry 4). -/
def Obligations.StoredBytesAreFetchedNext : Prop :=
  ∀ (x : RegNum) (s : State), 1 ≤ x.val → s.i = s.pc + s.params.step → s.i.toNat + x.val ≤ 0xFFF →
    ∃ t, exec (.ldMemVx x) s = .next t ∧ t.pc = s.i ∧ t.fetchAt t.pc = .ok (s.reg 0 ++ s.reg 1)

/-! ## Control transfer (`40_flow.md`) -/

/-- R80, return. That the popped slot is kept is decision D5 (log entry 16). -/
def Obligations.ReturnPopsThePc : Prop :=
  decode 0x00EE = .ok .ret ∧
  ∀ s : State,
    (∀ k : Fin 16, s.sp.val = k.val + 1 → ∃ t, exec .ret s = .next t ∧ t.pc = s.stack[k.val] ∧ t.sp.val = k.val ∧
      onlyChanges s t [.pc, .sp]) ∧
    (s.sp.val = 0 → exec .ret s = .next { s with err := some .stackUnderflow })

/-- R81, jump. -/
def Obligations.JumpSetsThePc : Prop :=
  ∀ addr : Addr, decode (BitVec.ofNat 16 (0x1000 + addr.toNat)) = .ok (.jpAddr addr) ∧
    ∀ s : State, ∃ t, exec (.jpAddr addr) s = .next t ∧ t.pc = addr ∧ onlyChanges s t [.pc]

/-- R82, call: the address of the next instruction is pushed, modulo 4096. The pushed value is decision D5 (log
entry 16), its wrap D3 (7), the sixteenth push D6 (16). -/
def Obligations.CallPushesTheReturnAddress : Prop :=
  ∀ addr : Addr, decode (BitVec.ofNat 16 (0x2000 + addr.toNat)) = .ok (.callAddr addr) ∧
    ∀ s : State,
      (∀ k : Fin 16, s.sp.val = k.val → ∃ t, exec (.callAddr addr) s = .next t ∧ t.pc = addr ∧
        t.stack[k.val].toNat = s.stepsOn 1 ∧ t.sp.val = k.val + 1 ∧
        onlyChanges s t [.pc, .sp, .slot k]) ∧
      (s.sp.val = 16 → exec (.callAddr addr) s = .next { s with err := some .stackOverflow })

/-- R83, jump plus `V[0]`, wrapping (the spec's decision D3). -/
def Obligations.ComputedJumpAddsRegisterZero : Prop :=
  ∀ addr : Addr, decode (BitVec.ofNat 16 (0xB000 + addr.toNat)) = .ok (.jpV0Addr addr) ∧
    ∀ s : State, ∃ t, exec (.jpV0Addr addr) s = .next t ∧
      t.pc.toNat = (addr.toNat + (s.reg 0).toNat) % 4096 ∧ onlyChanges s t [.pc]

/-- R84, R85, skips on an immediate. The clause on `pc`: decisions D2, D3 (log entries 4, 7). -/
def Obligations.ImmediateSkipsCompare : Prop :=
  ∀ (x : RegNum) (kk : Byte),
    decode (BitVec.ofNat 16 (0x3000 + 0x100 * x.val + kk.toNat)) = .ok (.seVxKk x kk) ∧
    decode (BitVec.ofNat 16 (0x4000 + 0x100 * x.val + kk.toNat)) = .ok (.sneVxKk x kk) ∧
    ∀ s : State,
      (∃ t, exec (.seVxKk x kk) s = .next t ∧
        t.pc.toNat = s.stepsOn (if s.reg x = kk then 2 else 1) ∧ onlyChanges s t [.pc]) ∧
      (∃ t, exec (.sneVxKk x kk) s = .next t ∧
        t.pc.toNat = s.stepsOn (if s.reg x ≠ kk then 2 else 1) ∧ onlyChanges s t [.pc])

/-- R86, R87, skips on two registers. The clause on `pc`: decisions D2, D3 (log entries 4, 7). -/
def Obligations.RegisterSkipsCompare : Prop :=
  ∀ x y : RegNum,
    decode (BitVec.ofNat 16 (0x5000 + 0x100 * x.val + 0x10 * y.val)) = .ok (.seVxVy x y) ∧
    decode (BitVec.ofNat 16 (0x9000 + 0x100 * x.val + 0x10 * y.val)) = .ok (.sneVxVy x y) ∧
    ∀ s : State,
      (∃ t, exec (.seVxVy x y) s = .next t ∧
        t.pc.toNat = s.stepsOn (if s.reg x = s.reg y then 2 else 1) ∧ onlyChanges s t [.pc]) ∧
      (∃ t, exec (.sneVxVy x y) s = .next t ∧
        t.pc.toNat = s.stepsOn (if s.reg x ≠ s.reg y then 2 else 1) ∧ onlyChanges s t [.pc])

/-! ## Register, arithmetic, logic, shift, random (`41_alu.md`) -/

/-- R90, load immediate. The clause on `pc`: decisions D2, D3 (log entries 4, 7). -/
def Obligations.LoadImmediateSetsTheRegister : Prop :=
  ∀ (x : RegNum) (kk : Byte),
    decode (BitVec.ofNat 16 (0x6000 + 0x100 * x.val + kk.toNat)) = .ok (.ldVxKk x kk) ∧
    ∀ s : State, ∃ t, exec (.ldVxKk x kk) s = .next t ∧ t.reg x = kk ∧
      t.pc.toNat = s.stepsOn 1 ∧ onlyChanges s t [.reg x, .pc]

/-- R91, add immediate: no flag, so `VF` is unchanged unless it is `x`. No flag: decision D8 (log entry 9). The
clause on `pc`: decisions D2, D3 (log entries 4, 7). -/
def Obligations.AddImmediateWrapsWithoutFlag : Prop :=
  ∀ (x : RegNum) (kk : Byte),
    decode (BitVec.ofNat 16 (0x7000 + 0x100 * x.val + kk.toNat)) = .ok (.addVxKk x kk) ∧
    ∀ s : State, ∃ t, exec (.addVxKk x kk) s = .next t ∧
      (t.reg x).toNat = ((s.reg x).toNat + kk.toNat) % 256 ∧
      t.pc.toNat = s.stepsOn 1 ∧ onlyChanges s t [.reg x, .pc]

/-- R92, move. The clause on `pc`: decisions D2, D3 (log entries 4, 7). -/
def Obligations.MoveCopiesTheRegister : Prop :=
  ∀ x y : RegNum,
    decode (BitVec.ofNat 16 (0x8000 + 0x100 * x.val + 0x10 * y.val)) = .ok (.ldVxVy x y) ∧
    ∀ s : State, ∃ t, exec (.ldVxVy x y) s = .next t ∧ t.reg x = s.reg y ∧
      t.pc.toNat = s.stepsOn 1 ∧ onlyChanges s t [.reg x, .pc]

/-- R93, R94, R95, or, and, exclusive or: bit by bit, no flag. No flag: decision D8 (log entry 9). The clause on
`pc`: decisions D2, D3 (log entries 4, 7). -/
def Obligations.LogicWorksBitByBit : Prop :=
  ∀ x y : RegNum,
    decode (BitVec.ofNat 16 (0x8001 + 0x100 * x.val + 0x10 * y.val)) = .ok (.orVxVy x y) ∧
    decode (BitVec.ofNat 16 (0x8002 + 0x100 * x.val + 0x10 * y.val)) = .ok (.andVxVy x y) ∧
    decode (BitVec.ofNat 16 (0x8003 + 0x100 * x.val + 0x10 * y.val)) = .ok (.xorVxVy x y) ∧
    ∀ s : State,
      (∃ t, exec (.orVxVy x y) s = .next t ∧
        (∀ j : Fin 8, (t.reg x).getLsbD j.val = ((s.reg x).getLsbD j.val || (s.reg y).getLsbD j.val)) ∧
        t.pc.toNat = s.stepsOn 1 ∧ onlyChanges s t [.reg x, .pc]) ∧
      (∃ t, exec (.andVxVy x y) s = .next t ∧
        (∀ j : Fin 8, (t.reg x).getLsbD j.val = ((s.reg x).getLsbD j.val && (s.reg y).getLsbD j.val)) ∧
        t.pc.toNat = s.stepsOn 1 ∧ onlyChanges s t [.reg x, .pc]) ∧
      (∃ t, exec (.xorVxVy x y) s = .next t ∧
        (∀ j : Fin 8, (t.reg x).getLsbD j.val = ((s.reg x).getLsbD j.val != (s.reg y).getLsbD j.val)) ∧
        t.pc.toNat = s.stepsOn 1 ∧ onlyChanges s t [.reg x, .pc])

/-- R96, add with carry out. With `x = 15` the flag overwrites the sum (R12, the spec's decision D7). The clause on
`pc`: decisions D2, D3 (log entries 4, 7). -/
def Obligations.AddReportsTheCarry : Prop :=
  ∀ x y : RegNum,
    decode (BitVec.ofNat 16 (0x8004 + 0x100 * x.val + 0x10 * y.val)) = .ok (.addVxVy x y) ∧
    ∀ s : State, ∃ t, exec (.addVxVy x y) s = .next t ∧
      (x ≠ 15 → (t.reg x).toNat = ((s.reg x).toNat + (s.reg y).toNat) % 256) ∧
      t.reg 15 = (if (s.reg x).toNat + (s.reg y).toNat > 255 then 1 else 0) ∧
      t.pc.toNat = s.stepsOn 1 ∧ onlyChanges s t [.reg x, .reg 15, .pc]

/-- R97, R99, the two subtracts, one flag convention: 1 when the minuend is not smaller than the subtrahend. With `x
= 15` the flag overwrites the difference (R12, the spec's decision D7). The clause on `pc`: decisions D2, D3 (log
entries 4, 7). -/
def Obligations.SubtractsReportNoBorrow : Prop :=
  ∀ x y : RegNum,
    decode (BitVec.ofNat 16 (0x8005 + 0x100 * x.val + 0x10 * y.val)) = .ok (.subVxVy x y) ∧
    decode (BitVec.ofNat 16 (0x8007 + 0x100 * x.val + 0x10 * y.val)) = .ok (.subnVxVy x y) ∧
    ∀ s : State,
      (∃ t, exec (.subVxVy x y) s = .next t ∧
        (x ≠ 15 → (t.reg x).toNat = (256 + (s.reg x).toNat - (s.reg y).toNat) % 256) ∧
        t.reg 15 = (if (s.reg x).toNat ≥ (s.reg y).toNat then 1 else 0) ∧
        t.pc.toNat = s.stepsOn 1 ∧ onlyChanges s t [.reg x, .reg 15, .pc]) ∧
      (∃ t, exec (.subnVxVy x y) s = .next t ∧
        (x ≠ 15 → (t.reg x).toNat = (256 + (s.reg y).toNat - (s.reg x).toNat) % 256) ∧
        t.reg 15 = (if (s.reg y).toNat ≥ (s.reg x).toNat then 1 else 0) ∧
        t.pc.toNat = s.stepsOn 1 ∧ onlyChanges s t [.reg x, .reg 15, .pc])

/-- R98, R100, the two shifts by one of `V[x]` in place, whatever `y` is; the flag is the bit shifted out. With `x =
15` the flag overwrites the result (R12, the spec's decision D7). The clause on `pc`: decisions D2, D3 (log entries
4, 7). -/
def Obligations.ShiftsReportTheLostBit : Prop :=
  ∀ x y : RegNum,
    decode (BitVec.ofNat 16 (0x8006 + 0x100 * x.val + 0x10 * y.val)) = .ok (.shrVx x y) ∧
    decode (BitVec.ofNat 16 (0x800E + 0x100 * x.val + 0x10 * y.val)) = .ok (.shlVx x y) ∧
    ∀ s : State,
      (∃ t, exec (.shrVx x y) s = .next t ∧
        (x ≠ 15 → (t.reg x).toNat = (s.reg x).toNat / 2) ∧ (t.reg 15).toNat = (s.reg x).toNat % 2 ∧
        t.pc.toNat = s.stepsOn 1 ∧ onlyChanges s t [.reg x, .reg 15, .pc]) ∧
      (∃ t, exec (.shlVx x y) s = .next t ∧
        (x ≠ 15 → (t.reg x).toNat = 2 * (s.reg x).toNat % 256) ∧ (t.reg 15).toNat = (s.reg x).toNat / 128 ∧
        t.pc.toNat = s.stepsOn 1 ∧ onlyChanges s t [.reg x, .reg 15, .pc])

/-- R101, random byte and mask: one draw of the generator, whatever its byte (free value of log entry 2). The
generator as a parameter: decision D16. The clause on `pc`: decisions D2, D3 (log entries 4, 7). -/
def Obligations.RandomDrawsOneByte : Prop :=
  ∀ (x : RegNum) (kk : Byte),
    decode (BitVec.ofNat 16 (0xC000 + 0x100 * x.val + kk.toNat)) = .ok (.rndVxKk x kk) ∧
    ∀ s : State, ∃ t, exec (.rndVxKk x kk) s = .next t ∧
      t.reg x = (Config.rngNext s.rng).1 &&& kk ∧ t.rng = (Config.rngNext s.rng).2 ∧
      (∀ j : Nat, kk.getLsbD j = false → (t.reg x).getLsbD j = false) ∧
      t.pc.toNat = s.stepsOn 1 ∧ onlyChanges s t [.reg x, .rng, .pc]

/-! ## Index register, loads and stores (`42_index_memory.md`) -/

/-- R110, load index. The clause on `pc`: decisions D2, D3 (log entries 4, 7). -/
def Obligations.LoadIndexSetsI : Prop :=
  ∀ addr : Addr, decode (BitVec.ofNat 16 (0xA000 + addr.toNat)) = .ok (.ldIAddr addr) ∧
    ∀ s : State, ∃ t, exec (.ldIAddr addr) s = .next t ∧ t.i = addr ∧
      t.pc.toNat = s.stepsOn 1 ∧ onlyChanges s t [.i, .pc]

/-- R111, add to index: wraps at 12 bits (the spec's decision D3), `VF` not touched. The clause on `pc`: decisions
D2, D3 (log entries 4, 7). -/
def Obligations.AddToIndexWraps : Prop :=
  ∀ x : RegNum, decode (BitVec.ofNat 16 (0xF01E + 0x100 * x.val)) = .ok (.addIVx x) ∧
    ∀ s : State, ∃ t, exec (.addIVx x) s = .next t ∧ t.i.toNat = (s.i.toNat + (s.reg x).toNat) % 4096 ∧
      t.pc.toNat = s.stepsOn 1 ∧ onlyChanges s t [.i, .pc]

/-- R112, glyph address: five times the whole 8-bit value (the spec's decision D10). The clause on `pc`: decisions
D2, D3 (log entries 4, 7). -/
def Obligations.FontAddressIsFiveTimes : Prop :=
  ∀ x : RegNum, decode (BitVec.ofNat 16 (0xF029 + 0x100 * x.val)) = .ok (.ldFVx x) ∧
    ∀ s : State, ∃ t, exec (.ldFVx x) s = .next t ∧ t.i.toNat = 5 * (s.reg x).toNat ∧
      t.pc.toNat = s.stepsOn 1 ∧ onlyChanges s t [.i, .pc]

/-- R113, store BCD; `I` is not changed. `I` unchanged: decision D11 (log entry 9). The clause on `pc`: decisions
D2, D3 (log entries 4, 7). -/
def Obligations.DecimalStoreWritesThreeDigits : Prop :=
  ∀ x : RegNum, decode (BitVec.ofNat 16 (0xF033 + 0x100 * x.val)) = .ok (.ldBVx x) ∧
    ∀ s : State,
      (s.i.toNat + 2 ≤ 0xFFF → ∃ t, exec (.ldBVx x) s = .next t ∧
        (t.byte s.i).toNat = (s.reg x).toNat / 100 ∧
        (t.byte (s.i + 1)).toNat = (s.reg x).toNat / 10 % 10 ∧
        (t.byte (s.i + 2)).toNat = (s.reg x).toNat % 10 ∧
        t.pc.toNat = s.stepsOn 1 ∧ onlyChanges s t (.pc :: bytesAt s.i 3)) ∧
      (0xFFF < s.i.toNat + 2 →
        exec (.ldBVx x) s = .next { s with err := some (.addressSpaceViolation .data s.i 3) })

/-- R114, bulk store; `I` is not changed. `I` unchanged: decision D11 (log entry 9). The clause on `pc`: decisions
D2, D3 (log entries 4, 7). -/
def Obligations.BulkStoreCopiesRegisters : Prop :=
  ∀ x : RegNum, decode (BitVec.ofNat 16 (0xF055 + 0x100 * x.val)) = .ok (.ldMemVx x) ∧
    ∀ s : State,
      (s.i.toNat + x.val ≤ 0xFFF → ∃ t, exec (.ldMemVx x) s = .next t ∧
        (∀ k : RegNum, k ≤ x → t.byte (s.i + BitVec.ofNat 12 k.val) = s.reg k) ∧
        t.pc.toNat = s.stepsOn 1 ∧ onlyChanges s t (.pc :: bytesAt s.i (x.val + 1))) ∧
      (0xFFF < s.i.toNat + x.val →
        exec (.ldMemVx x) s = .next { s with err := some (.addressSpaceViolation .data s.i (x.val + 1)) })

/-- R115, bulk load; `I` and memory are not changed, registers above `x` neither. `I` unchanged: decision D11 (log
entry 9). The clause on `pc`: decisions D2, D3 (log entries 4, 7). -/
def Obligations.BulkLoadCopiesMemory : Prop :=
  ∀ x : RegNum, decode (BitVec.ofNat 16 (0xF065 + 0x100 * x.val)) = .ok (.ldVxMem x) ∧
    ∀ s : State,
      (s.i.toNat + x.val ≤ 0xFFF → ∃ t, exec (.ldVxMem x) s = .next t ∧
        (∀ k : RegNum, k ≤ x → t.reg k = s.byte (s.i + BitVec.ofNat 12 k.val)) ∧
        t.pc.toNat = s.stepsOn 1 ∧ onlyChanges s t (.pc :: regsTo x)) ∧
      (0xFFF < s.i.toNat + x.val →
        exec (.ldVxMem x) s = .next { s with err := some (.addressSpaceViolation .data s.i (x.val + 1)) })

/-! ## Framebuffer (`43_display.md`) -/

/-- R120, clear screen; `VF` is not touched. The clause on `pc`: decisions D2, D3 (log entries 4, 7). -/
def Obligations.ClearScreenClearsEveryRow : Prop :=
  decode 0x00E0 = .ok .cls ∧
  ∀ s : State, ∃ t, exec .cls s = .next t ∧ (∀ r : Fin 32, t.fb[r.val] = 0) ∧
    t.pc.toNat = s.stepsOn 1 ∧ onlyChanges s t (.pc :: rowsAt 0 32)

/-- R122, draw sprite, pixel by pixel: every pixel is exclusive-ored with the sprite's pixel there, wrapping at both
edges; `VF` is 1 exactly when a set pixel was erased. `n = 0` completes whatever `I` is. The bit order of a row is
decision D12 (log entry 11), the empty range D13 (17), the flag last D7 (8). The clause on `pc`: decisions D2, D3
(log entries 4, 7). -/
def Obligations.DrawXorsTheSprite : Prop :=
  ∀ (x y : RegNum) (n : BitVec 4),
    decode (BitVec.ofNat 16 (0xD000 + 0x100 * x.val + 0x10 * y.val + n.toNat)) = .ok (.drwVxVyN x y n) ∧
    ∀ s : State,
      (s.i.toNat + n.toNat ≤ 4096 → ∃ t, exec (.drwVxVyN x y n) s = .next t ∧
        (∀ (r : Fin 32) (c : Fin 64), t.pixel r c = (s.pixel r c != spritePixel s x y n r c)) ∧
        (t.reg 15 = 0 ∨ t.reg 15 = 1) ∧
        (t.reg 15 = 1 ↔ ∃ (r : Fin 32) (c : Fin 64), s.pixel r c = true ∧ spritePixel s x y n r c = true) ∧
        t.pc.toNat = s.stepsOn 1 ∧
        onlyChanges s t (.pc :: .reg 15 :: rowsAt (s.reg y).toNat n.toNat)) ∧
      (4096 < s.i.toNat + n.toNat →
        exec (.drwVxVyN x y n) s = .next { s with err := some (.addressSpaceViolation .data s.i n.toNat) })

/-! ## Keypad and timers (`44_keypad_timers.md`) -/

/-- R130, R131, R132, key skips: a code above 15 is no pressed key (the spec's decision D15). The clause on `pc`:
decisions D2, D3 (log entries 4, 7). -/
def Obligations.KeySkipsTestTheKeypad : Prop :=
  ∀ x : RegNum,
    decode (BitVec.ofNat 16 (0xE09E + 0x100 * x.val)) = .ok (.skpVx x) ∧
    decode (BitVec.ofNat 16 (0xE0A1 + 0x100 * x.val)) = .ok (.sknpVx x) ∧
    ∀ s : State,
      (∃ t, exec (.skpVx x) s = .next t ∧
        t.pc.toNat =
          s.stepsOn (if (s.reg x).toNat ≤ 15 ∧ s.key.getLsbD (s.reg x).toNat = true then 2 else 1) ∧
        onlyChanges s t [.pc]) ∧
      (∃ t, exec (.sknpVx x) s = .next t ∧
        t.pc.toNat =
          s.stepsOn (if (s.reg x).toNat ≤ 15 ∧ s.key.getLsbD (s.reg x).toNat = true then 1 else 2) ∧
        onlyChanges s t [.pc])

/-- R133, key wait: the lowest pressed key (the spec's decision D14), or no change at all while no key is pressed.
The clause on `pc`: decisions D2, D3 (log entries 4, 7). -/
def Obligations.KeyWaitTakesTheLowestKey : Prop :=
  ∀ x : RegNum, decode (BitVec.ofNat 16 (0xF00A + 0x100 * x.val)) = .ok (.ldVxK x) ∧
    ∀ s : State,
      (∀ k : Fin 16, s.key.getLsbD k.val = true → (∀ j : Fin 16, j < k → s.key.getLsbD j.val = false) →
        ∃ t, exec (.ldVxK x) s = .next t ∧ (t.reg x).toNat = k.val ∧
          t.pc.toNat = s.stepsOn 1 ∧ onlyChanges s t [.reg x, .pc]) ∧
      ((∀ k : Fin 16, s.key.getLsbD k.val = false) → exec (.ldVxK x) s = .next s)

/-- R134, R135, R136, the timer moves. Which word does which move is decision D17 (log entry 15). The clause on
`pc`: decisions D2, D3 (log entries 4, 7). -/
def Obligations.TimerMovesCopy : Prop :=
  ∀ x : RegNum,
    decode (BitVec.ofNat 16 (0xF007 + 0x100 * x.val)) = .ok (.ldVxDt x) ∧
    decode (BitVec.ofNat 16 (0xF015 + 0x100 * x.val)) = .ok (.ldDtVx x) ∧
    decode (BitVec.ofNat 16 (0xF018 + 0x100 * x.val)) = .ok (.ldStVx x) ∧
    ∀ s : State,
      (∃ t, exec (.ldVxDt x) s = .next t ∧ t.reg x = s.dt ∧
        t.pc.toNat = s.stepsOn 1 ∧ onlyChanges s t [.reg x, .pc]) ∧
      (∃ t, exec (.ldDtVx x) s = .next t ∧ t.dt = s.reg x ∧
        t.pc.toNat = s.stepsOn 1 ∧ onlyChanges s t [.dt, .pc]) ∧
      (∃ t, exec (.ldStVx x) s = .next t ∧ t.st = s.reg x ∧
        t.pc.toNat = s.stepsOn 1 ∧ onlyChanges s t [.st, .pc])
end

