-- ==== Sys2Proof/Laws/Decode.lean ====
section
/-! SUPPORT. The opcode table: its rows are pairwise disjoint, so a word that fits a row decodes to that row's
operation; and the masks of the formats on words built from fields. -/

namespace Sys2Proof

/-- Two rows that differ have a fixed bit in common with different values. -/
theorem rows_disjoint :
    opcodeTable.all (fun r => opcodeTable.all (fun q =>
      r == q || decide (r.value &&& q.mask ≠ q.value &&& r.mask))) = true := by
  decide +kernel

/-- At most one row fits a word (R63). -/
theorem row_unique {w : Word} {r q : OpRow} (hr : r ∈ opcodeTable) (hq : q ∈ opcodeTable) (fr : r.fits w = true)
    (fq : q.fits w = true) : r = q := by
  have h := List.all_eq_true.1 (List.all_eq_true.1 rows_disjoint r hr) q hq
  rcases Bool.or_eq_true_iff.1 h with h | h
  · exact eq_of_beq h
  · have h1 : w &&& r.mask = r.value := eq_of_beq fr
    have h2 : w &&& q.mask = q.value := eq_of_beq fq
    have h3 : r.value &&& q.mask = q.value &&& r.mask := by
      rw [← h1, ← h2, BitVec.and_assoc, BitVec.and_assoc, BitVec.and_comm r.mask]
    exact absurd h3 (by simpa using h)

/-- A word that fits a row decodes to the row's operation with the word's fields. -/
theorem decode_of_row {w : Word} {r : OpRow} (hr : r ∈ opcodeTable) (fr : r.fits w = true) :
    decode w = .ok (r.op.build (fieldsOf w)) := by
  unfold decode
  split
  · rename_i q hq
    rw [row_unique (List.mem_of_find?_eq_some hq) hr (by simpa using List.find?_some hq) fr]
  · rename_i hn
    have := List.find?_eq_none.1 hn r hr
    simp [fr] at this

/-- What a word that decodes comes from: a row it fits. -/
theorem row_of_decode {w : Word} {i : Instr} (h : decode w = .ok i) :
    ∃ r ∈ opcodeTable, r.fits w = true ∧ i = r.op.build (fieldsOf w) := by
  unfold decode at h
  split at h
  · rename_i r hr
    exact ⟨r, List.mem_of_find?_eq_some hr, by simpa using List.find?_some hr, by simpa using h.symm⟩
  · simp at h

/-- Building an instruction keeps its operation. -/
@[simp] theorem Op.build_op (o : Op) (f : Fields) : (o.build f).op = o := by
  cases o <;> rfl

/-! ## The masks of the formats -/

theorem mask_high (h : BitVec 4) (l : BitVec 12) : (h ++ l : Word) &&& 0xF000 = h ++ 0#12 := by
  apply BitVec.eq_of_getLsbD_eq
  intro k hk
  simp only [BitVec.getLsbD_and, BitVec.getLsbD_append]
  by_cases h1 : k < 12
  · have : (0xF000#16).getLsbD k = false := by interval_cases k <;> rfl
    simp [h1, this]
  · have : (0xF000#16).getLsbD k = true := by interval_cases k <;> rfl
    simp [h1, this]

theorem mask_high_byte (h x : BitVec 4) (l : Byte) : (h ++ x ++ l : Word) &&& 0xF0FF = h ++ 0#4 ++ l := by
  apply BitVec.eq_of_getLsbD_eq
  intro k hk
  simp only [BitVec.getLsbD_and, BitVec.getLsbD_append]
  by_cases h1 : k < 8
  · have : (0xF0FF#16).getLsbD k = true := by interval_cases k <;> rfl
    simp [h1, this]
  · by_cases h2 : k - 8 < 4
    · have : (0xF0FF#16).getLsbD k = false := by interval_cases k <;> first | rfl | omega
      simp [h1, h2, this]
    · have : (0xF0FF#16).getLsbD k = true := by interval_cases k <;> first | rfl | omega
      simp [h1, h2, this]

theorem mask_high_low (h x y l : BitVec 4) : (h ++ x ++ y ++ l : Word) &&& 0xF00F = h ++ 0#4 ++ 0#4 ++ l := by
  apply BitVec.eq_of_getLsbD_eq
  intro k hk
  simp only [BitVec.getLsbD_and, BitVec.getLsbD_append]
  by_cases h1 : k < 4
  · have : (0xF00F#16).getLsbD k = true := by interval_cases k <;> rfl
    simp [h1, this]
  · by_cases h2 : k - 4 < 8
    · have : (0xF00F#16).getLsbD k = false := by interval_cases k <;> first | rfl | omega
      have h3 : k - 4 < 4 ∨ k - 4 - 4 < 4 := by omega
      rcases h3 with h3 | h3 <;> simp [h1, h3, this]
    · have : (0xF00F#16).getLsbD k = true := by interval_cases k <;> first | rfl | omega
      have h3 : ¬ k - 4 < 4 := by omega
      have h4 : ¬ k - 4 - 4 < 4 := by omega
      simp [h1, h3, h4, this]

theorem mask_high_of_xk (h x : BitVec 4) (l : Byte) : (h ++ x ++ l : Word) &&& 0xF000 = h ++ 0#12 := by
  have e : (h ++ x ++ l : Word) = h ++ (x ++ l) := BitVec.append_assoc
  rw [e]
  exact mask_high h (x ++ l)

theorem mask_high_of_xyn (h x y l : BitVec 4) : (h ++ x ++ y ++ l : Word) &&& 0xF000 = h ++ 0#12 := by
  have e : (h ++ x ++ y ++ l : Word) = h ++ (x ++ (y ++ l)) := by
    rw [BitVec.append_assoc, BitVec.append_assoc]
    rfl
  rw [e]
  exact mask_high h (x ++ (y ++ l))

/-! ## The fields of words built from fields -/

theorem fieldsOf_addr (h : BitVec 4) (a : Addr) : (fieldsOf (h ++ a)).addr = a := by
  have e : BitVec.extractLsb' 0 12 (h ++ a) = a := by
    apply BitVec.eq_of_getLsbD_eq
    intro k hk
    simp only [BitVec.getLsbD_extractLsb', BitVec.getLsbD_append]
    simp [hk]
  exact e

theorem fieldsOf_xk_x (h x : BitVec 4) (l : Byte) : (fieldsOf (h ++ x ++ l)).x = x.toFin := by
  have e : BitVec.extractLsb' 8 4 (h ++ x ++ l) = x := by
    apply BitVec.eq_of_getLsbD_eq
    intro k hk
    simp only [BitVec.getLsbD_extractLsb', BitVec.getLsbD_append]
    simp [hk]
  exact congrArg BitVec.toFin e

theorem fieldsOf_xk_kk (h x : BitVec 4) (l : Byte) : (fieldsOf (h ++ x ++ l)).kk = l := by
  have e : BitVec.extractLsb' 0 8 (h ++ x ++ l) = l := by
    apply BitVec.eq_of_getLsbD_eq
    intro k hk
    simp only [BitVec.getLsbD_extractLsb', BitVec.getLsbD_append]
    simp [hk]
  exact e

theorem fieldsOf_xyn_x (h x y l : BitVec 4) : (fieldsOf (h ++ x ++ y ++ l)).x = x.toFin := by
  have e : BitVec.extractLsb' 8 4 (h ++ x ++ y ++ l) = x := by
    apply BitVec.eq_of_getLsbD_eq
    intro k hk
    have h1 : ¬ 8 + k < 4 := by omega
    have h2 : ¬ 8 + k - 4 < 4 := by omega
    have h3 : 8 + k - 4 - 4 = k := by omega
    simp only [BitVec.getLsbD_extractLsb', BitVec.getLsbD_append]
    simp [h1, h2, h3, hk]
  exact congrArg BitVec.toFin e

theorem fieldsOf_xyn_y (h x y l : BitVec 4) : (fieldsOf (h ++ x ++ y ++ l)).y = y.toFin := by
  have e : BitVec.extractLsb' 4 4 (h ++ x ++ y ++ l) = y := by
    apply BitVec.eq_of_getLsbD_eq
    intro k hk
    simp only [BitVec.getLsbD_extractLsb', BitVec.getLsbD_append]
    simp [hk]
  exact congrArg BitVec.toFin e

theorem fieldsOf_xyn_n (h x y l : BitVec 4) : (fieldsOf (h ++ x ++ y ++ l)).n = l := by
  have e : BitVec.extractLsb' 0 4 (h ++ x ++ y ++ l) = l := by
    apply BitVec.eq_of_getLsbD_eq
    intro k hk
    simp only [BitVec.getLsbD_extractLsb', BitVec.getLsbD_append]
    simp [hk]
  exact e

theorem fieldsOf_val (w : Word) :
    (fieldsOf w).x.val = w.toNat / 256 % 16 ∧ (fieldsOf w).y.val = w.toNat / 16 % 16 ∧
      (fieldsOf w).n.toNat = w.toNat % 16 ∧ (fieldsOf w).kk.toNat = w.toNat % 256 ∧
      (fieldsOf w).addr.toNat = w.toNat % 4096 := by
  simp [fieldsOf, BitVec.extractLsb'_toNat, Nat.shiftRight_eq_div_pow]

@[simp] theorem nibble_toFin (x : RegNum) : (nibble x).toFin = x := rfl

@[simp] theorem nibble_toNat (x : RegNum) : (nibble x).toNat = x.val := rfl

/-- Appending as arithmetic. -/
theorem append_toNat {n m : Nat} (a : BitVec n) (b : BitVec m) : (a ++ b).toNat = a.toNat * 2 ^ m + b.toNat := by
  rw [BitVec.toNat_append, Nat.shiftLeft_eq, Nat.mul_comm, ← Nat.two_pow_add_eq_or_of_lt b.isLt, Nat.mul_comm]

/-- A word cut into its two bytes and put together again. -/
theorem wordOfBytes_extract (w : Word) : wordOfBytes (w.extractLsb' 8 8) (w.extractLsb' 0 8) = w := by
  apply BitVec.eq_of_toNat_eq
  have e := append_toNat (w.extractLsb' 8 8) (w.extractLsb' 0 8)
  have := w.isLt
  simp only [BitVec.extractLsb'_toNat, Nat.shiftRight_eq_div_pow] at e
  have e2 : (wordOfBytes (w.extractLsb' 8 8) (w.extractLsb' 0 8)).toNat =
      w.toNat / 2 ^ 8 % 2 ^ 8 * 2 ^ 8 + w.toNat / 2 ^ 0 % 2 ^ 8 := e
  omega

/-! ## Words as numbers -/

theorem word_a (h : BitVec 4) (a : Addr) : (h ++ a : Word) = BitVec.ofNat 16 (0x1000 * h.toNat + a.toNat) := by
  apply BitVec.eq_of_toNat_eq
  have e := append_toNat h a
  have := h.isLt
  have := a.isLt
  have e2 : (h ++ a : Word).toNat = 0x1000 * h.toNat + a.toNat := by omega
  rw [e2, BitVec.toNat_ofNat]
  omega

theorem word_xk (h : BitVec 4) (x : RegNum) (kk : Byte) :
    (h ++ nibble x ++ kk : Word) = BitVec.ofNat 16 (0x1000 * h.toNat + 0x100 * x.val + kk.toNat) := by
  apply BitVec.eq_of_toNat_eq
  have e1 := append_toNat (h ++ nibble x) kk
  have e := append_toNat h (nibble x)
  have := h.isLt
  have := x.isLt
  have := kk.isLt
  rw [nibble_toNat] at e
  have e2 : (h ++ nibble x ++ kk : Word).toNat = 0x1000 * h.toNat + 0x100 * x.val + kk.toNat := by omega
  rw [e2, BitVec.toNat_ofNat]
  omega

theorem word_xyn (h : BitVec 4) (x y : RegNum) (n : BitVec 4) :
    (h ++ nibble x ++ nibble y ++ n : Word) =
      BitVec.ofNat 16 (0x1000 * h.toNat + 0x100 * x.val + 0x10 * y.val + n.toNat) := by
  apply BitVec.eq_of_toNat_eq
  have e1 := append_toNat (h ++ nibble x ++ nibble y) n
  have e2 := append_toNat (h ++ nibble x) (nibble y)
  have e3 := append_toNat h (nibble x)
  have := h.isLt
  have := x.isLt
  have := y.isLt
  have := n.isLt
  rw [nibble_toNat] at e2 e3
  have e4 : (h ++ nibble x ++ nibble y ++ n : Word).toNat =
      0x1000 * h.toNat + 0x100 * x.val + 0x10 * y.val + n.toNat := by omega
  rw [e4, BitVec.toNat_ofNat]
  omega

end Sys2Proof
end

