-- ==== Sys2Proof/Laws/State.lean ====
section
/-! SUPPORT. What each named update of the state does to each field: one lemma a field, so that no later proof unfolds
a record update. -/

namespace Sys2Proof.Machine

/-! ## setReg -/

@[simp] theorem State.setReg_v (s : State) (x : RegNum) (b : Byte) : (s.setReg x b).v = s.v.set x.val b := rfl
@[simp] theorem State.setReg_i (s : State) (x : RegNum) (b : Byte) : (s.setReg x b).i = s.i := rfl
@[simp] theorem State.setReg_pc (s : State) (x : RegNum) (b : Byte) : (s.setReg x b).pc = s.pc := rfl
@[simp] theorem State.setReg_dt (s : State) (x : RegNum) (b : Byte) : (s.setReg x b).dt = s.dt := rfl
@[simp] theorem State.setReg_st (s : State) (x : RegNum) (b : Byte) : (s.setReg x b).st = s.st := rfl
@[simp] theorem State.setReg_sp (s : State) (x : RegNum) (b : Byte) : (s.setReg x b).sp = s.sp := rfl
@[simp] theorem State.setReg_stack (s : State) (x : RegNum) (b : Byte) : (s.setReg x b).stack = s.stack := rfl
@[simp] theorem State.setReg_params (s : State) (x : RegNum) (b : Byte) : (s.setReg x b).params = s.params := rfl
@[simp] theorem State.setReg_byte (s : State) (x : RegNum) (b : Byte) (k : Addr) : (s.setReg x b).byte k = s.byte k := rfl
@[simp] theorem State.setReg_mem (s : State) (x : RegNum) (b : Byte) : (s.setReg x b).mem = s.mem := rfl
@[simp] theorem State.setReg_fb (s : State) (x : RegNum) (b : Byte) : (s.setReg x b).fb = s.fb := rfl
@[simp] theorem State.setReg_key (s : State) (x : RegNum) (b : Byte) : (s.setReg x b).key = s.key := rfl
@[simp] theorem State.setReg_rng (s : State) (x : RegNum) (b : Byte) : (s.setReg x b).rng = s.rng := rfl
@[simp] theorem State.setReg_err (s : State) (x : RegNum) (b : Byte) : (s.setReg x b).err = s.err := rfl

/-! ## setI -/

@[simp] theorem State.setI_v (s : State) (a : Addr) : (s.setI a).v = s.v := rfl
@[simp] theorem State.setI_i (s : State) (a : Addr) : (s.setI a).i = a := rfl
@[simp] theorem State.setI_pc (s : State) (a : Addr) : (s.setI a).pc = s.pc := rfl
@[simp] theorem State.setI_dt (s : State) (a : Addr) : (s.setI a).dt = s.dt := rfl
@[simp] theorem State.setI_st (s : State) (a : Addr) : (s.setI a).st = s.st := rfl
@[simp] theorem State.setI_sp (s : State) (a : Addr) : (s.setI a).sp = s.sp := rfl
@[simp] theorem State.setI_stack (s : State) (a : Addr) : (s.setI a).stack = s.stack := rfl
@[simp] theorem State.setI_params (s : State) (a : Addr) : (s.setI a).params = s.params := rfl
@[simp] theorem State.setI_byte (s : State) (a : Addr) (k : Addr) : (s.setI a).byte k = s.byte k := rfl
@[simp] theorem State.setI_mem (s : State) (a : Addr) : (s.setI a).mem = s.mem := rfl
@[simp] theorem State.setI_fb (s : State) (a : Addr) : (s.setI a).fb = s.fb := rfl
@[simp] theorem State.setI_key (s : State) (a : Addr) : (s.setI a).key = s.key := rfl
@[simp] theorem State.setI_rng (s : State) (a : Addr) : (s.setI a).rng = s.rng := rfl
@[simp] theorem State.setI_err (s : State) (a : Addr) : (s.setI a).err = s.err := rfl
@[simp] theorem State.setI_reg (s : State) (a : Addr) (y : RegNum) : (s.setI a).reg y = s.reg y := rfl

/-! ## setPc -/

@[simp] theorem State.setPc_v (s : State) (a : Addr) : (s.setPc a).v = s.v := rfl
@[simp] theorem State.setPc_i (s : State) (a : Addr) : (s.setPc a).i = s.i := rfl
@[simp] theorem State.setPc_pc (s : State) (a : Addr) : (s.setPc a).pc = a := rfl
@[simp] theorem State.setPc_dt (s : State) (a : Addr) : (s.setPc a).dt = s.dt := rfl
@[simp] theorem State.setPc_st (s : State) (a : Addr) : (s.setPc a).st = s.st := rfl
@[simp] theorem State.setPc_sp (s : State) (a : Addr) : (s.setPc a).sp = s.sp := rfl
@[simp] theorem State.setPc_stack (s : State) (a : Addr) : (s.setPc a).stack = s.stack := rfl
@[simp] theorem State.setPc_params (s : State) (a : Addr) : (s.setPc a).params = s.params := rfl
@[simp] theorem State.setPc_byte (s : State) (a : Addr) (k : Addr) : (s.setPc a).byte k = s.byte k := rfl
@[simp] theorem State.setPc_mem (s : State) (a : Addr) : (s.setPc a).mem = s.mem := rfl
@[simp] theorem State.setPc_fb (s : State) (a : Addr) : (s.setPc a).fb = s.fb := rfl
@[simp] theorem State.setPc_key (s : State) (a : Addr) : (s.setPc a).key = s.key := rfl
@[simp] theorem State.setPc_rng (s : State) (a : Addr) : (s.setPc a).rng = s.rng := rfl
@[simp] theorem State.setPc_err (s : State) (a : Addr) : (s.setPc a).err = s.err := rfl
@[simp] theorem State.setPc_reg (s : State) (a : Addr) (y : RegNum) : (s.setPc a).reg y = s.reg y := rfl

/-! ## setDt -/

@[simp] theorem State.setDt_v (s : State) (b : Byte) : (s.setDt b).v = s.v := rfl
@[simp] theorem State.setDt_i (s : State) (b : Byte) : (s.setDt b).i = s.i := rfl
@[simp] theorem State.setDt_pc (s : State) (b : Byte) : (s.setDt b).pc = s.pc := rfl
@[simp] theorem State.setDt_dt (s : State) (b : Byte) : (s.setDt b).dt = b := rfl
@[simp] theorem State.setDt_st (s : State) (b : Byte) : (s.setDt b).st = s.st := rfl
@[simp] theorem State.setDt_sp (s : State) (b : Byte) : (s.setDt b).sp = s.sp := rfl
@[simp] theorem State.setDt_stack (s : State) (b : Byte) : (s.setDt b).stack = s.stack := rfl
@[simp] theorem State.setDt_params (s : State) (b : Byte) : (s.setDt b).params = s.params := rfl
@[simp] theorem State.setDt_byte (s : State) (b : Byte) (k : Addr) : (s.setDt b).byte k = s.byte k := rfl
@[simp] theorem State.setDt_mem (s : State) (b : Byte) : (s.setDt b).mem = s.mem := rfl
@[simp] theorem State.setDt_fb (s : State) (b : Byte) : (s.setDt b).fb = s.fb := rfl
@[simp] theorem State.setDt_key (s : State) (b : Byte) : (s.setDt b).key = s.key := rfl
@[simp] theorem State.setDt_rng (s : State) (b : Byte) : (s.setDt b).rng = s.rng := rfl
@[simp] theorem State.setDt_err (s : State) (b : Byte) : (s.setDt b).err = s.err := rfl
@[simp] theorem State.setDt_reg (s : State) (b : Byte) (y : RegNum) : (s.setDt b).reg y = s.reg y := rfl

/-! ## setSt -/

@[simp] theorem State.setSt_v (s : State) (b : Byte) : (s.setSt b).v = s.v := rfl
@[simp] theorem State.setSt_i (s : State) (b : Byte) : (s.setSt b).i = s.i := rfl
@[simp] theorem State.setSt_pc (s : State) (b : Byte) : (s.setSt b).pc = s.pc := rfl
@[simp] theorem State.setSt_dt (s : State) (b : Byte) : (s.setSt b).dt = s.dt := rfl
@[simp] theorem State.setSt_st (s : State) (b : Byte) : (s.setSt b).st = b := rfl
@[simp] theorem State.setSt_sp (s : State) (b : Byte) : (s.setSt b).sp = s.sp := rfl
@[simp] theorem State.setSt_stack (s : State) (b : Byte) : (s.setSt b).stack = s.stack := rfl
@[simp] theorem State.setSt_params (s : State) (b : Byte) : (s.setSt b).params = s.params := rfl
@[simp] theorem State.setSt_byte (s : State) (b : Byte) (k : Addr) : (s.setSt b).byte k = s.byte k := rfl
@[simp] theorem State.setSt_mem (s : State) (b : Byte) : (s.setSt b).mem = s.mem := rfl
@[simp] theorem State.setSt_fb (s : State) (b : Byte) : (s.setSt b).fb = s.fb := rfl
@[simp] theorem State.setSt_key (s : State) (b : Byte) : (s.setSt b).key = s.key := rfl
@[simp] theorem State.setSt_rng (s : State) (b : Byte) : (s.setSt b).rng = s.rng := rfl
@[simp] theorem State.setSt_err (s : State) (b : Byte) : (s.setSt b).err = s.err := rfl
@[simp] theorem State.setSt_reg (s : State) (b : Byte) (y : RegNum) : (s.setSt b).reg y = s.reg y := rfl

/-! ## raise -/

@[simp] theorem State.raise_v (s : State) (e : FaultRecord) : (s.raise e).v = s.v := rfl
@[simp] theorem State.raise_i (s : State) (e : FaultRecord) : (s.raise e).i = s.i := rfl
@[simp] theorem State.raise_pc (s : State) (e : FaultRecord) : (s.raise e).pc = s.pc := rfl
@[simp] theorem State.raise_dt (s : State) (e : FaultRecord) : (s.raise e).dt = s.dt := rfl
@[simp] theorem State.raise_st (s : State) (e : FaultRecord) : (s.raise e).st = s.st := rfl
@[simp] theorem State.raise_sp (s : State) (e : FaultRecord) : (s.raise e).sp = s.sp := rfl
@[simp] theorem State.raise_stack (s : State) (e : FaultRecord) : (s.raise e).stack = s.stack := rfl
@[simp] theorem State.raise_params (s : State) (e : FaultRecord) : (s.raise e).params = s.params := rfl
@[simp] theorem State.raise_byte (s : State) (e : FaultRecord) (k : Addr) : (s.raise e).byte k = s.byte k := rfl
@[simp] theorem State.raise_mem (s : State) (e : FaultRecord) : (s.raise e).mem = s.mem := rfl
@[simp] theorem State.raise_fb (s : State) (e : FaultRecord) : (s.raise e).fb = s.fb := rfl
@[simp] theorem State.raise_key (s : State) (e : FaultRecord) : (s.raise e).key = s.key := rfl
@[simp] theorem State.raise_rng (s : State) (e : FaultRecord) : (s.raise e).rng = s.rng := rfl
@[simp] theorem State.raise_err (s : State) (e : FaultRecord) : (s.raise e).err = some e := rfl
@[simp] theorem State.raise_reg (s : State) (e : FaultRecord) (y : RegNum) : (s.raise e).reg y = s.reg y := rfl

/-! ## advance -/

@[simp] theorem State.advance_v (s : State) : (s.advance).v = s.v := rfl
@[simp] theorem State.advance_i (s : State) : (s.advance).i = s.i := rfl
@[simp] theorem State.advance_pc (s : State) : (s.advance).pc = s.nextPc := rfl
@[simp] theorem State.advance_dt (s : State) : (s.advance).dt = s.dt := rfl
@[simp] theorem State.advance_st (s : State) : (s.advance).st = s.st := rfl
@[simp] theorem State.advance_sp (s : State) : (s.advance).sp = s.sp := rfl
@[simp] theorem State.advance_stack (s : State) : (s.advance).stack = s.stack := rfl
@[simp] theorem State.advance_params (s : State) : (s.advance).params = s.params := rfl
@[simp] theorem State.advance_byte (s : State) (k : Addr) : (s.advance).byte k = s.byte k := rfl
@[simp] theorem State.advance_mem (s : State) : (s.advance).mem = s.mem := rfl
@[simp] theorem State.advance_fb (s : State) : (s.advance).fb = s.fb := rfl
@[simp] theorem State.advance_key (s : State) : (s.advance).key = s.key := rfl
@[simp] theorem State.advance_rng (s : State) : (s.advance).rng = s.rng := rfl
@[simp] theorem State.advance_err (s : State) : (s.advance).err = s.err := rfl
@[simp] theorem State.advance_reg (s : State) (y : RegNum) : (s.advance).reg y = s.reg y := rfl

/-! ## skip -/

@[simp] theorem State.skip_v (s : State) : (s.skip).v = s.v := rfl
@[simp] theorem State.skip_i (s : State) : (s.skip).i = s.i := rfl
@[simp] theorem State.skip_pc (s : State) : (s.skip).pc = s.pc + s.params.step + s.params.step := rfl
@[simp] theorem State.skip_dt (s : State) : (s.skip).dt = s.dt := rfl
@[simp] theorem State.skip_st (s : State) : (s.skip).st = s.st := rfl
@[simp] theorem State.skip_sp (s : State) : (s.skip).sp = s.sp := rfl
@[simp] theorem State.skip_stack (s : State) : (s.skip).stack = s.stack := rfl
@[simp] theorem State.skip_params (s : State) : (s.skip).params = s.params := rfl
@[simp] theorem State.skip_byte (s : State) (k : Addr) : (s.skip).byte k = s.byte k := rfl
@[simp] theorem State.skip_mem (s : State) : (s.skip).mem = s.mem := rfl
@[simp] theorem State.skip_fb (s : State) : (s.skip).fb = s.fb := rfl
@[simp] theorem State.skip_key (s : State) : (s.skip).key = s.key := rfl
@[simp] theorem State.skip_rng (s : State) : (s.skip).rng = s.rng := rfl
@[simp] theorem State.skip_err (s : State) : (s.skip).err = s.err := rfl
@[simp] theorem State.skip_reg (s : State) (y : RegNum) : (s.skip).reg y = s.reg y := rfl

/-! ## setKeys -/

@[simp] theorem State.setKeys_v (s : State) (k : BitVec 16) : (s.setKeys k).v = s.v := rfl
@[simp] theorem State.setKeys_i (s : State) (k : BitVec 16) : (s.setKeys k).i = s.i := rfl
@[simp] theorem State.setKeys_pc (s : State) (k : BitVec 16) : (s.setKeys k).pc = s.pc := rfl
@[simp] theorem State.setKeys_dt (s : State) (k : BitVec 16) : (s.setKeys k).dt = s.dt := rfl
@[simp] theorem State.setKeys_st (s : State) (k : BitVec 16) : (s.setKeys k).st = s.st := rfl
@[simp] theorem State.setKeys_sp (s : State) (k : BitVec 16) : (s.setKeys k).sp = s.sp := rfl
@[simp] theorem State.setKeys_stack (s : State) (k : BitVec 16) : (s.setKeys k).stack = s.stack := rfl
@[simp] theorem State.setKeys_params (s : State) (k : BitVec 16) : (s.setKeys k).params = s.params := rfl
@[simp] theorem State.setKeys_byte (s : State) (k : BitVec 16) (a : Addr) : (s.setKeys k).byte a = s.byte a := rfl
@[simp] theorem State.setKeys_mem (s : State) (k : BitVec 16) : (s.setKeys k).mem = s.mem := rfl
@[simp] theorem State.setKeys_fb (s : State) (k : BitVec 16) : (s.setKeys k).fb = s.fb := rfl
@[simp] theorem State.setKeys_key (s : State) (k : BitVec 16) : (s.setKeys k).key = k := rfl
@[simp] theorem State.setKeys_rng (s : State) (k : BitVec 16) : (s.setKeys k).rng = s.rng := rfl
@[simp] theorem State.setKeys_err (s : State) (k : BitVec 16) : (s.setKeys k).err = s.err := rfl
@[simp] theorem State.setKeys_reg (s : State) (k : BitVec 16) (y : RegNum) : (s.setKeys k).reg y = s.reg y := rfl

/-! ## seed -/

@[simp] theorem State.seed_v (s : State) (r : Config.RngState) : (s.seed r).v = s.v := rfl
@[simp] theorem State.seed_i (s : State) (r : Config.RngState) : (s.seed r).i = s.i := rfl
@[simp] theorem State.seed_pc (s : State) (r : Config.RngState) : (s.seed r).pc = s.pc := rfl
@[simp] theorem State.seed_dt (s : State) (r : Config.RngState) : (s.seed r).dt = s.dt := rfl
@[simp] theorem State.seed_st (s : State) (r : Config.RngState) : (s.seed r).st = s.st := rfl
@[simp] theorem State.seed_sp (s : State) (r : Config.RngState) : (s.seed r).sp = s.sp := rfl
@[simp] theorem State.seed_stack (s : State) (r : Config.RngState) : (s.seed r).stack = s.stack := rfl
@[simp] theorem State.seed_params (s : State) (r : Config.RngState) : (s.seed r).params = s.params := rfl
@[simp] theorem State.seed_byte (s : State) (r : Config.RngState) (k : Addr) : (s.seed r).byte k = s.byte k := rfl
@[simp] theorem State.seed_mem (s : State) (r : Config.RngState) : (s.seed r).mem = s.mem := rfl
@[simp] theorem State.seed_fb (s : State) (r : Config.RngState) : (s.seed r).fb = s.fb := rfl
@[simp] theorem State.seed_key (s : State) (r : Config.RngState) : (s.seed r).key = s.key := rfl
@[simp] theorem State.seed_rng (s : State) (r : Config.RngState) : (s.seed r).rng = r := rfl
@[simp] theorem State.seed_err (s : State) (r : Config.RngState) : (s.seed r).err = s.err := rfl
@[simp] theorem State.seed_reg (s : State) (r : Config.RngState) (y : RegNum) : (s.seed r).reg y = s.reg y := rfl

/-! ## tick -/

@[simp] theorem State.tick_v (s : State) : s.tick.v = s.v := rfl
@[simp] theorem State.tick_i (s : State) : s.tick.i = s.i := rfl
@[simp] theorem State.tick_pc (s : State) : s.tick.pc = s.pc := rfl
@[simp] theorem State.tick_dt (s : State) : s.tick.dt = countDown s.dt := rfl
@[simp] theorem State.tick_st (s : State) : s.tick.st = countDown s.st := rfl
@[simp] theorem State.tick_sp (s : State) : s.tick.sp = s.sp := rfl
@[simp] theorem State.tick_stack (s : State) : s.tick.stack = s.stack := rfl
@[simp] theorem State.tick_params (s : State) : s.tick.params = s.params := rfl
@[simp] theorem State.tick_byte (s : State) (k : Addr) : s.tick.byte k = s.byte k := rfl
@[simp] theorem State.tick_mem (s : State) : s.tick.mem = s.mem := rfl
@[simp] theorem State.tick_fb (s : State) : s.tick.fb = s.fb := rfl
@[simp] theorem State.tick_key (s : State) : s.tick.key = s.key := rfl
@[simp] theorem State.tick_rng (s : State) : s.tick.rng = s.rng := rfl
@[simp] theorem State.tick_err (s : State) : s.tick.err = s.err := rfl
@[simp] theorem State.tick_reg (s : State) (y : RegNum) : s.tick.reg y = s.reg y := rfl

/-! ## store -/

@[simp] theorem State.store_params (s : State) (a : Addr) (bs : List Byte) : (s.store a bs).params = s.params := rfl
@[simp] theorem State.store_v (s : State) (a : Addr) (bs : List Byte) : (s.store a bs).v = s.v := rfl
@[simp] theorem State.store_i (s : State) (a : Addr) (bs : List Byte) : (s.store a bs).i = s.i := rfl
@[simp] theorem State.store_pc (s : State) (a : Addr) (bs : List Byte) : (s.store a bs).pc = s.pc := rfl
@[simp] theorem State.store_dt (s : State) (a : Addr) (bs : List Byte) : (s.store a bs).dt = s.dt := rfl
@[simp] theorem State.store_st (s : State) (a : Addr) (bs : List Byte) : (s.store a bs).st = s.st := rfl
@[simp] theorem State.store_sp (s : State) (a : Addr) (bs : List Byte) : (s.store a bs).sp = s.sp := rfl
@[simp] theorem State.store_stack (s : State) (a : Addr) (bs : List Byte) : (s.store a bs).stack = s.stack := rfl
@[simp] theorem State.store_mem (s : State) (a : Addr) (bs : List Byte) :
    (s.store a bs).mem = s.mem.writeBytes s.params.font a bs := rfl
@[simp] theorem State.store_fb (s : State) (a : Addr) (bs : List Byte) : (s.store a bs).fb = s.fb := rfl
@[simp] theorem State.store_key (s : State) (a : Addr) (bs : List Byte) : (s.store a bs).key = s.key := rfl
@[simp] theorem State.store_rng (s : State) (a : Addr) (bs : List Byte) : (s.store a bs).rng = s.rng := rfl
@[simp] theorem State.store_err (s : State) (a : Addr) (bs : List Byte) : (s.store a bs).err = s.err := rfl
@[simp] theorem State.store_reg (s : State) (a : Addr) (bs : List Byte) (y : RegNum) :
    (s.store a bs).reg y = s.reg y := rfl

/-! ## setFlag, setResultFlag: only the registers -/

@[simp] theorem State.setFlag_i (s : State) (c : Bool) : (s.setFlag c).i = s.i := rfl
@[simp] theorem State.setFlag_pc (s : State) (c : Bool) : (s.setFlag c).pc = s.pc := rfl
@[simp] theorem State.setFlag_dt (s : State) (c : Bool) : (s.setFlag c).dt = s.dt := rfl
@[simp] theorem State.setFlag_st (s : State) (c : Bool) : (s.setFlag c).st = s.st := rfl
@[simp] theorem State.setFlag_sp (s : State) (c : Bool) : (s.setFlag c).sp = s.sp := rfl
@[simp] theorem State.setFlag_stack (s : State) (c : Bool) : (s.setFlag c).stack = s.stack := rfl
@[simp] theorem State.setFlag_params (s : State) (c : Bool) : (s.setFlag c).params = s.params := rfl
@[simp] theorem State.setFlag_byte (s : State) (c : Bool) (k : Addr) : (s.setFlag c).byte k = s.byte k := rfl
@[simp] theorem State.setFlag_mem (s : State) (c : Bool) : (s.setFlag c).mem = s.mem := rfl
@[simp] theorem State.setFlag_fb (s : State) (c : Bool) : (s.setFlag c).fb = s.fb := rfl
@[simp] theorem State.setFlag_key (s : State) (c : Bool) : (s.setFlag c).key = s.key := rfl
@[simp] theorem State.setFlag_rng (s : State) (c : Bool) : (s.setFlag c).rng = s.rng := rfl
@[simp] theorem State.setFlag_err (s : State) (c : Bool) : (s.setFlag c).err = s.err := rfl
@[simp] theorem State.setResultFlag_i (s : State) (x : RegNum) (b : Byte) (c : Bool) :
    (s.setResultFlag x b c).i = s.i := rfl
@[simp] theorem State.setResultFlag_pc (s : State) (x : RegNum) (b : Byte) (c : Bool) :
    (s.setResultFlag x b c).pc = s.pc := rfl
@[simp] theorem State.setResultFlag_dt (s : State) (x : RegNum) (b : Byte) (c : Bool) :
    (s.setResultFlag x b c).dt = s.dt := rfl
@[simp] theorem State.setResultFlag_st (s : State) (x : RegNum) (b : Byte) (c : Bool) :
    (s.setResultFlag x b c).st = s.st := rfl
@[simp] theorem State.setResultFlag_sp (s : State) (x : RegNum) (b : Byte) (c : Bool) :
    (s.setResultFlag x b c).sp = s.sp := rfl
@[simp] theorem State.setResultFlag_stack (s : State) (x : RegNum) (b : Byte) (c : Bool) :
    (s.setResultFlag x b c).stack = s.stack := rfl
@[simp] theorem State.setResultFlag_params (s : State) (x : RegNum) (b : Byte) (c : Bool) :
    (s.setResultFlag x b c).params = s.params := rfl
@[simp] theorem State.setResultFlag_byte (s : State) (x : RegNum) (b : Byte) (c : Bool) (k : Addr) :
    (s.setResultFlag x b c).byte k = s.byte k := rfl
@[simp] theorem State.setResultFlag_mem (s : State) (x : RegNum) (b : Byte) (c : Bool) :
    (s.setResultFlag x b c).mem = s.mem := rfl
@[simp] theorem State.setResultFlag_fb (s : State) (x : RegNum) (b : Byte) (c : Bool) :
    (s.setResultFlag x b c).fb = s.fb := rfl
@[simp] theorem State.setResultFlag_key (s : State) (x : RegNum) (b : Byte) (c : Bool) :
    (s.setResultFlag x b c).key = s.key := rfl
@[simp] theorem State.setResultFlag_rng (s : State) (x : RegNum) (b : Byte) (c : Bool) :
    (s.setResultFlag x b c).rng = s.rng := rfl
@[simp] theorem State.setResultFlag_err (s : State) (x : RegNum) (b : Byte) (c : Bool) :
    (s.setResultFlag x b c).err = s.err := rfl

/-! ## skipIf: only the program counter -/

@[simp] theorem State.skipIf_v (s : State) (c : Bool) : (s.skipIf c).v = s.v := by cases c <;> rfl
@[simp] theorem State.skipIf_i (s : State) (c : Bool) : (s.skipIf c).i = s.i := by cases c <;> rfl
theorem State.skipIf_pc (s : State) (c : Bool) :
    (s.skipIf c).pc = if c then s.pc + s.params.step + s.params.step else s.pc + s.params.step := by
  cases c <;> rfl
@[simp] theorem State.skipIf_dt (s : State) (c : Bool) : (s.skipIf c).dt = s.dt := by cases c <;> rfl
@[simp] theorem State.skipIf_st (s : State) (c : Bool) : (s.skipIf c).st = s.st := by cases c <;> rfl
@[simp] theorem State.skipIf_sp (s : State) (c : Bool) : (s.skipIf c).sp = s.sp := by cases c <;> rfl
@[simp] theorem State.skipIf_stack (s : State) (c : Bool) : (s.skipIf c).stack = s.stack := by cases c <;> rfl
@[simp] theorem State.skipIf_params (s : State) (c : Bool) : (s.skipIf c).params = s.params := by cases c <;> rfl
@[simp] theorem State.skipIf_mem (s : State) (c : Bool) : (s.skipIf c).mem = s.mem := by cases c <;> rfl
@[simp] theorem State.skipIf_fb (s : State) (c : Bool) : (s.skipIf c).fb = s.fb := by cases c <;> rfl
@[simp] theorem State.skipIf_key (s : State) (c : Bool) : (s.skipIf c).key = s.key := by cases c <;> rfl
@[simp] theorem State.skipIf_rng (s : State) (c : Bool) : (s.skipIf c).rng = s.rng := by cases c <;> rfl
@[simp] theorem State.skipIf_err (s : State) (c : Bool) : (s.skipIf c).err = s.err := by cases c <;> rfl
@[simp] theorem State.skipIf_byte (s : State) (c : Bool) (k : Addr) : (s.skipIf c).byte k = s.byte k := by
  cases c <;> rfl
@[simp] theorem State.skipIf_reg (s : State) (c : Bool) (y : RegNum) : (s.skipIf c).reg y = s.reg y := by
  cases c <;> rfl

/-! ## Reading a register after a write -/

/-- A register reads as the value written to it and any other as before. -/
theorem State.reg_setReg (s : State) (x y : RegNum) (b : Byte) :
    (s.setReg x b).reg y = if y = x then b else s.reg y := by
  unfold State.reg State.setReg
  rw [Vector.getElem_set]
  by_cases h : y = x
  · simp [h]
  · have : x.val ≠ y.val := fun e => h (Fin.ext e.symm)
    simp [h, this]

@[simp] theorem State.reg_setReg_self (s : State) (x : RegNum) (b : Byte) : (s.setReg x b).reg x = b := by
  simp [State.reg_setReg]

theorem State.reg_setReg_of_ne (s : State) {x y : RegNum} (h : y ≠ x) (b : Byte) :
    (s.setReg x b).reg y = s.reg y := by
  simp [State.reg_setReg, h]

@[simp] theorem State.reg_setFlag_vf (s : State) (c : Bool) : (s.setFlag c).reg 15 = flagByte c := by
  simp [State.setFlag, vf]

theorem State.reg_setFlag_of_ne (s : State) {y : RegNum} (h : y ≠ 15) (c : Bool) : (s.setFlag c).reg y = s.reg y := by
  simp [State.setFlag, vf, State.reg_setReg, h]

@[simp] theorem State.reg_setResultFlag_vf (s : State) (x : RegNum) (b : Byte) (c : Bool) :
    (s.setResultFlag x b c).reg 15 = flagByte c := by
  simp [State.setResultFlag]

/-- The result stands in its register unless that is `VF`, where the flag overwrites it (R12). -/
theorem State.reg_setResultFlag_self (s : State) {x : RegNum} (h : x ≠ 15) (b : Byte) (c : Bool) :
    (s.setResultFlag x b c).reg x = b := by
  simp [State.setResultFlag, State.reg_setFlag_of_ne _ h]

theorem State.reg_setResultFlag_of_ne (s : State) {x y : RegNum} (hx : y ≠ x) (h : y ≠ 15) (b : Byte) (c : Bool) :
    (s.setResultFlag x b c).reg y = s.reg y := by
  simp [State.setResultFlag, State.reg_setFlag_of_ne _ h, State.reg_setReg_of_ne _ hx]

theorem flagByte_toNat (c : Bool) : (flagByte c).toNat = if c then 1 else 0 := by
  cases c <;> rfl

/-! ## The program counter as a number -/

theorem State.advance_pc_toNat (s : State) : s.advance.pc.toNat = (s.pc.toNat + s.params.step.toNat) % 4096 := by
  simp [State.nextPc, BitVec.toNat_add]

theorem State.skip_pc_toNat (s : State) : s.skip.pc.toNat = (s.pc.toNat + 2 * s.params.step.toNat) % 4096 := by
  simp [BitVec.toNat_add, Nat.add_assoc]
  omega

theorem State.skipIf_pc_toNat (s : State) (c : Bool) :
    (s.skipIf c).pc.toNat = (s.pc.toNat + (if c then 2 else 1) * s.params.step.toNat) % 4096 := by
  cases c
  · show s.advance.pc.toNat = _
    rw [s.advance_pc_toNat, if_neg (by decide), Nat.one_mul]
  · exact s.skip_pc_toNat

end Sys2Proof.Machine
end

