-- ==== Sys2Proof/Laws/Memory.lean ====
section
/-! SUPPORT. Memory: a read after a write, ranges read and written, and that every operation keeps the canonical form. -/

namespace Sys2Proof.Machine

variable {f : Config.Font}

/-! ## One byte -/

theorem Memory.find_filter_self (a : Nat) (m : Memory) :
    Memory.find a (m.filter (fun c => c.1 != a)) = none := by
  induction m with
  | nil => rfl
  | cons c m ih =>
    by_cases h : c.1 = a
    · simp [h, ih]
    · simp [h, Memory.find, ih]

theorem Memory.find_filter_of_ne {a k : Nat} (h : k ≠ a) (m : Memory) :
    Memory.find k (m.filter (fun c => c.1 != a)) = Memory.find k m := by
  induction m with
  | nil => rfl
  | cons c m ih =>
    by_cases hc : c.1 = a
    · have : ¬ c.1 = k := fun e => h (e ▸ hc)
      have hak : ¬ a = k := fun e => h e.symm
      simp [hc, Memory.find, ih, hak]
    · simp [hc, Memory.find, ih]

theorem Memory.find_insertCell_self {a : Nat} (b : Byte) (m : Memory) (h : Memory.find a m = none) :
    Memory.find a (Memory.insertCell (a, b) m) = some b := by
  induction m with
  | nil => simp [Memory.insertCell, Memory.find]
  | cons c m ih =>
    have hc : ¬ c.1 = a := by
      intro e
      simp [Memory.find, e] at h
    have hm : Memory.find a m = none := by simpa [Memory.find, hc] using h
    unfold Memory.insertCell
    split
    · simp [Memory.find]
    · simp [Memory.find, hc, ih hm]

theorem Memory.find_insertCell_of_ne {a k : Nat} (h : k ≠ a) (b : Byte) (m : Memory) :
    Memory.find k (Memory.insertCell (a, b) m) = Memory.find k m := by
  have hak : ¬ a = k := fun e => h e.symm
  induction m with
  | nil => simp [Memory.insertCell, Memory.find, hak]
  | cons c m ih =>
    unfold Memory.insertCell
    split
    · simp [Memory.find, hak]
    · simp [Memory.find, ih]

/-- A byte reads as the value written to it and any other as before, in every list of cells. -/
theorem Memory.read_write (m : Memory) (a k : Addr) (b : Byte) :
    (m.write f a b).read f k = if k = a then b else m.read f k := by
  unfold Memory.write Memory.read
  by_cases h : k = a
  · subst h
    by_cases hb : b = Memory.unlisted f k.toNat
    · simp [← hb, Memory.find_filter_self]
    · simp [hb, Memory.find_insertCell_self b _ (Memory.find_filter_self _ m)]
  · have hn : k.toNat ≠ a.toNat := fun e => h (BitVec.eq_of_toNat_eq e)
    by_cases hb : b = Memory.unlisted f a.toNat
    · simp [← hb, h, Memory.find_filter_of_ne hn]
    · simp [hb, h, Memory.find_insertCell_of_ne hn, Memory.find_filter_of_ne hn]

@[simp] theorem Memory.read_write_self (m : Memory) (a : Addr) (b : Byte) : (m.write f a b).read f a = b := by
  simp [Memory.read_write]

theorem Memory.read_write_of_ne (m : Memory) {a k : Addr} (h : k ≠ a) (b : Byte) :
    (m.write f a b).read f k = m.read f k := by
  simp [Memory.read_write, h]

/-! ## Ranges -/

@[simp] theorem Memory.bytes_length (m : Memory) (a : Addr) (n : Nat) : (m.bytes f a n).length = n := by
  induction n generalizing a with
  | zero => rfl
  | succ n ih => simp [Memory.bytes, ih]

/-- Element `k` of a range is the byte `k` above its start. -/
theorem Memory.bytes_getElem? (m : Memory) (a : Addr) (n k : Nat) :
    (m.bytes f a n)[k]? = if k < n then some (m.read f (a + BitVec.ofNat 12 k)) else none := by
  induction n generalizing a k with
  | zero => simp [Memory.bytes]
  | succ n ih =>
    cases k with
    | zero => simp [Memory.bytes]
    | succ k =>
      have e : a + 1 + BitVec.ofNat 12 k = a + BitVec.ofNat 12 (k + 1) := by
        apply BitVec.eq_of_toNat_eq
        simp [BitVec.toNat_add]
        omega
      rw [Memory.bytes, List.getElem?_cons_succ, ih, e]
      simp

/-- A byte outside the range of a write, which does not leave the address space, reads as before. -/
theorem Memory.read_writeBytes_of_outside (m : Memory) (a k : Addr) (bs : List Byte)
    (hr : a.toNat + bs.length ≤ 4096) (h : k.toNat < a.toNat ∨ a.toNat + bs.length ≤ k.toNat) :
    (m.writeBytes f a bs).read f k = m.read f k := by
  induction bs generalizing m a with
  | nil => rfl
  | cons b bs ih =>
    simp only [List.length_cons] at hr h
    have hk := k.isLt
    have hne : k ≠ a := by rintro rfl; omega
    cases bs with
    | nil => exact Memory.read_write_of_ne m hne b
    | cons c cs =>
      simp only [List.length_cons] at hr h ih
      have ha : (a + 1 : Addr).toNat = a.toNat + 1 := by
        simp [BitVec.toNat_add]
        omega
      rw [Memory.writeBytes, ih (m.write f a b) (a + 1) (by omega) (by omega), Memory.read_write_of_ne m hne]

/-- A byte inside the range of a write reads as its element of the list. -/
theorem Memory.read_writeBytes_inside (m : Memory) (a : Addr) (bs : List Byte) (hr : a.toNat + bs.length ≤ 4096)
    (k : Nat) (hk : k < bs.length) :
    (m.writeBytes f a bs).read f (a + BitVec.ofNat 12 k) = bs[k] := by
  induction bs generalizing m a k with
  | nil => simp at hk
  | cons b bs ih =>
    simp only [List.length_cons] at hr hk
    have ha := a.isLt
    cases k with
    | zero =>
      have e : a + BitVec.ofNat 12 0 = a := by simp
      rw [e, Memory.writeBytes]
      cases bs with
      | nil => simp [Memory.writeBytes]
      | cons c cs =>
        simp only [List.length_cons] at hr
        have h1 : (a + 1 : Addr).toNat = a.toNat + 1 := by
          simp [BitVec.toNat_add]
          omega
        rw [Memory.read_writeBytes_of_outside _ _ _ _ (by simp only [List.length_cons]; omega) (by omega)]
        simp
    | succ k =>
      have h1 : (a + 1 : Addr).toNat = a.toNat + 1 := by
        simp [BitVec.toNat_add]
        omega
      have e : a + BitVec.ofNat 12 (k + 1) = a + 1 + BitVec.ofNat 12 k := by
        apply BitVec.eq_of_toNat_eq
        simp [BitVec.toNat_add]
        omega
      rw [e, Memory.writeBytes, ih (m.write f a b) (a + 1) (by omega) k (by omega)]
      rfl

/-! ## The canonical form -/

theorem Memory.wf_cons (c : Host.Cell) (m : Memory) :
    Memory.wf f (c :: m) = true ↔
      c.1 ≤ Config.addrMax ∧ c.2 ≠ Memory.unlisted f c.1 ∧ (∀ d ∈ m, c.1 < d.1) ∧ Memory.wf f m = true := by
  simp [Memory.wf, and_assoc]

theorem Memory.wf_filter (p : Host.Cell → Bool) {m : Memory} (h : Memory.wf f m = true) :
    Memory.wf f (m.filter p) = true := by
  induction m with
  | nil => rfl
  | cons c m ih =>
    obtain ⟨h1, h2, h3, h4⟩ := (Memory.wf_cons c m).1 h
    rw [List.filter_cons]
    split
    · exact (Memory.wf_cons _ _).2 ⟨h1, h2, fun d hd => h3 d (List.mem_filter.1 hd).1, ih h4⟩
    · exact ih h4

theorem Memory.mem_insertCell {c d : Host.Cell} {m : Memory} (h : d ∈ Memory.insertCell c m) : d = c ∨ d ∈ m := by
  induction m with
  | nil => simpa [Memory.insertCell] using h
  | cons e m ih =>
    unfold Memory.insertCell at h
    split at h
    · simpa using h
    · rcases List.mem_cons.1 h with rfl | h
      · simp
      · rcases ih h with rfl | h
        · simp
        · simp [h]

theorem Memory.wf_insertCell {c : Host.Cell} {m : Memory} (h : Memory.wf f m = true) (hc : c.1 ≤ Config.addrMax)
    (hu : c.2 ≠ Memory.unlisted f c.1) (hn : ∀ d ∈ m, d.1 ≠ c.1) : Memory.wf f (Memory.insertCell c m) = true := by
  induction m with
  | nil => exact (Memory.wf_cons _ _).2 ⟨hc, hu, by simp, rfl⟩
  | cons e m ih =>
    obtain ⟨h1, h2, h3, h4⟩ := (Memory.wf_cons e m).1 h
    unfold Memory.insertCell
    split
    · rename_i hlt
      refine (Memory.wf_cons _ _).2 ⟨hc, hu, fun d hd => ?_, h⟩
      rcases List.mem_cons.1 hd with rfl | hd
      · exact hlt
      · exact Nat.lt_trans hlt (h3 d hd)
    · rename_i hge
      have hne : e.1 ≠ c.1 := hn e (by simp)
      refine (Memory.wf_cons _ _).2 ⟨h1, h2, fun d hd => ?_, ih h4 fun d hd => hn d (by simp [hd])⟩
      rcases Memory.mem_insertCell hd with rfl | hd
      · omega
      · exact h3 d hd

/-- A write keeps the canonical form. -/
theorem Memory.wf_write {m : Memory} (h : Memory.wf f m = true) (a : Addr) (b : Byte) : (m.write f a b).wf f = true := by
  unfold Memory.write
  by_cases hb : b = Memory.unlisted f a.toNat
  · simpa [← hb] using Memory.wf_filter _ h
  · have ha : a.toNat ≤ Config.addrMax := by
      have := a.isLt
      unfold Config.addrMax
      omega
    simpa [hb] using
      Memory.wf_insertCell (c := (a.toNat, b)) (Memory.wf_filter _ h) ha hb
        (fun d hd => by simpa using (List.mem_filter.1 hd).2)

/-- A write of several bytes keeps the canonical form. -/
theorem Memory.wf_writeBytes {m : Memory} (h : Memory.wf f m = true) (a : Addr) (bs : List Byte) :
    (m.writeBytes f a bs).wf f = true := by
  induction bs generalizing m a with
  | nil => exact h
  | cons b bs ih => exact ih (Memory.wf_write h a b) (a + 1)

/-! ## The bounds check and the primitives that make it -/

theorem rangeLeaves_iff (a : Addr) (n : Nat) : rangeLeaves a n = true ↔ 4096 < a.toNat + n := by
  have := a.isLt
  simp only [rangeLeaves, Bool.and_eq_true, decide_eq_true_eq]
  simp only [Config.addrMax]
  omega

/-- All that `MemRead` can do. -/
theorem memRead_eq (m : Memory) (a : Addr) (n : Nat) :
    memRead m f a n =
      if 4096 < a.toNat + n then .error (.addressSpaceViolation .data a n) else .ok (m.bytes f a n) := by
  simp only [memRead, rangeLeaves_iff]

/-- All that `MemWrite` can do. -/
theorem memWrite_eq (m : Memory) (a : Addr) (bs : List Byte) :
    memWrite m f a bs =
      if 4096 < a.toNat + bs.length then .error (.addressSpaceViolation .data a bs.length)
      else .ok (m.writeBytes f a bs) := by
  simp only [memWrite, rangeLeaves_iff]

/-- All that a fetch can do. -/
theorem fetch_eq (m : Memory) (a : Addr) :
    fetch m f a =
      if a = 0xFFF then .error (.addressSpaceViolation .fetch a 2) else .ok (m.read f a ++ m.read f (a + 1)) := by
  have hlt := a.isLt
  have : a.toNat + 1 > Config.addrMax ↔ a = 0xFFF := by
    constructor
    · intro h
      apply BitVec.eq_of_toNat_eq
      simp [Config.addrMax] at h ⊢
      omega
    · rintro rfl
      decide
  simp only [fetch, this, wordOfBytes]

/-! ## The memory of a state -/

theorem State.fetchAt_eq (s : State) (a : Addr) :
    s.fetchAt a =
      if a = 0xFFF then .error (.addressSpaceViolation .fetch a 2) else .ok (s.byte a ++ s.byte (a + 1)) :=
  fetch_eq s.mem a

/-- Element `k` of a range of a state's memory. -/
theorem State.bytes_getElem? (s : State) (a : Addr) (n k : Nat) :
    (s.mem.bytes s.params.font a n)[k]? = if k < n then some (s.byte (a + BitVec.ofNat 12 k)) else none :=
  Memory.bytes_getElem? s.mem a n k

/-- A byte outside the range of a store reads as before. -/
theorem State.byte_store_of_outside (s : State) (a k : Addr) (bs : List Byte) (hr : a.toNat + bs.length ≤ 4096)
    (h : k.toNat < a.toNat ∨ a.toNat + bs.length ≤ k.toNat) : (s.store a bs).byte k = s.byte k :=
  Memory.read_writeBytes_of_outside s.mem a k bs hr h

/-- A byte inside the range of a store reads as its element of the list. -/
theorem State.byte_store_inside (s : State) (a : Addr) (bs : List Byte) (hr : a.toNat + bs.length ≤ 4096) (k : Nat)
    (hk : k < bs.length) : (s.store a bs).byte (a + BitVec.ofNat 12 k) = bs[k] :=
  Memory.read_writeBytes_inside s.mem a bs hr k hk

end Sys2Proof.Machine
end

