-- ==== Sys2Proof/Laws/Ops.lean ====
section
/-! SUPPORT. For each shared operation, all that it can do: the stack, the range at the index register, the register
lists, the keypad scan, the drawing loop, the stages of a step. -/

namespace Sys2Proof.Machine

/-! ## The stack -/

theorem State.push_of_lt {s : State} (h : s.sp.val < 16) (a : Addr) :
    s.push a = .ok { s with stack := s.stack.set s.sp.val a h, sp := ⟨s.sp.val + 1, Nat.succ_lt_succ h⟩ } := by
  have h' : s.sp.val < Config.stackDepth := h
  simp [State.push, h']

theorem State.push_of_full {s : State} (h : s.sp.val = 16) (a : Addr) : s.push a = .error .stackOverflow := by
  have h' : ¬ s.sp.val < Config.stackDepth := by simp [Config.stackDepth, h]
  simp [State.push, h']

theorem State.pop_of_pos {s : State} {k : Fin 16} (h : s.sp.val = k.val + 1) :
    s.pop = .ok (s.stack[k.val], { s with sp := k.castSucc }) := by
  have h0 : 0 < s.sp.val := by omega
  simp [State.pop, h]
  exact Fin.ext rfl

theorem State.pop_of_empty {s : State} (h : s.sp.val = 0) : s.pop = .error .stackUnderflow := by
  simp [State.pop, h]

/-! ## Completion -/

@[simp] theorem State.complete_ok (s t : State) : s.complete (.ok t) = .next t := rfl

@[simp] theorem State.complete_error (s : State) (e : FaultRecord) : s.complete (.error e) = .next (s.raise e) := rfl

/-- An instruction that can fault ends in its result or in the fault taken. -/
theorem State.complete_cases {s t : State} {r : Except FaultRecord State} (h : s.complete r = .next t) :
    r = .ok t ∨ ∃ e, r = .error e ∧ t = s.raise e := by
  cases r with
  | ok u =>
    left
    simpa using h
  | error e =>
    right
    exact ⟨e, rfl, by simpa using h.symm⟩

/-! ## The range at the index register -/

theorem State.readAtI_eq (s : State) (n : Nat) :
    s.readAtI n =
      if 4096 < s.i.toNat + n then .error (.addressSpaceViolation .data s.i n)
      else .ok (s.mem.bytes s.params.font s.i n) :=
  memRead_eq s.mem s.i n

theorem State.writeAtI_eq (s : State) (bs : List Byte) :
    s.writeAtI bs =
      if 4096 < s.i.toNat + bs.length then .error (.addressSpaceViolation .data s.i bs.length)
      else .ok (s.store s.i bs) := by
  unfold State.writeAtI
  rw [memWrite_eq]
  split <;> rfl

/-! ## Register lists -/

@[simp] theorem State.regsUpTo_length (s : State) (x : RegNum) : (s.regsUpTo x).length = x.val + 1 := by
  simp [State.regsUpTo]

theorem State.regsUpTo_getElem? (s : State) (x k : RegNum) (h : k ≤ x) : (s.regsUpTo x)[k.val]? = some (s.reg k) := by
  have hk : k.val < x.val + 1 := Nat.lt_succ_of_le h
  simp [State.regsUpTo, State.reg, hk]

/-- A list of bytes written to the registers from `k` up: each register of the range reads as its element. -/
theorem State.reg_setRegsFrom (s : State) (k : Nat) (bs : List Byte) (y : RegNum) :
    (s.setRegsFrom k bs).reg y = if k ≤ y.val then (bs[y.val - k]?).getD (s.reg y) else s.reg y := by
  have hy := y.isLt
  induction bs generalizing s k with
  | nil => simp [State.setRegsFrom]
  | cons b bs ih =>
    unfold State.setRegsFrom
    split
    · rename_i h
      rw [ih]
      by_cases h1 : k + 1 ≤ y.val
      · have h2 : k ≤ y.val := by omega
        have h3 : y.val - k = (y.val - (k + 1)) + 1 := by omega
        have h4 : y ≠ ⟨k, h⟩ := by
          rintro rfl
          simp at h1
        simp [h1, h2, h3, State.reg_setReg_of_ne _ h4]
      · by_cases h2 : k = y.val
        · subst h2
          simp
        · have h3 : ¬ k ≤ y.val := by omega
          have h4 : y ≠ ⟨k, h⟩ := by
            rintro rfl
            simp at h2
          simp [h1, h3, State.reg_setReg_of_ne _ h4]
    · have : ¬ k ≤ y.val := by omega
      simp [this]

/-- Nothing but registers is written by it. -/
theorem State.setRegsFrom_eq (s : State) (k : Nat) (bs : List Byte) :
    s.setRegsFrom k bs = { s with v := (s.setRegsFrom k bs).v } := by
  induction bs generalizing s k with
  | nil => rfl
  | cons b bs ih =>
    unfold State.setRegsFrom
    split
    · rw [ih]
      rfl
    · rfl

/-! ## The keypad -/

/-- The scan finds the least pressed key. -/
theorem State.lowestKey_eq_some {s : State} {k : Fin 16} (h : s.key.getLsbD k.val = true)
    (hmin : ∀ j : Fin 16, j < k → s.key.getLsbD j.val = false) : s.lowestKey = some k.val := by
  have hk := k.isLt
  unfold State.lowestKey
  rw [List.find?_range_eq_some]
  refine ⟨h, by simp, fun j hj => ?_⟩
  simp [hmin ⟨j, by omega⟩ hj]

theorem State.lowestKey_eq_none {s : State} (h : ∀ k : Fin 16, s.key.getLsbD k.val = false) : s.lowestKey = none := by
  unfold State.lowestKey
  rw [List.find?_eq_none]
  intro k hk
  simp [h ⟨k, List.mem_range.1 hk⟩]

/-- The keypad with a pressed key has a least one. -/
theorem exists_lowest_key {key : BitVec 16} (h : key ≠ 0) :
    ∃ k : Fin 16, key.getLsbD k.val = true ∧ ∀ j : Fin 16, j < k → key.getLsbD j.val = false := by
  have hex : ∃ k : Nat, key.getLsbD k = true := by
    by_contra hn
    push Not at hn
    apply h
    apply BitVec.eq_of_getLsbD_eq
    intro i _
    simpa using hn i
  classical
  have hf := Nat.find_spec hex
  have hlt : Nat.find hex < 16 := by
    by_contra hge
    rw [BitVec.getLsbD_of_ge _ _ (by omega)] at hf
    exact absurd hf (by simp)
  refine ⟨⟨Nat.find hex, hlt⟩, hf, fun j hj => ?_⟩
  have := Nat.find_min hex (m := j.val) hj
  simpa using this

/-! ## The drawing loop -/

/-- A framebuffer row after the loop: exclusive-ored with the mask of the one sprite row that falls on it. -/
theorem drawRows_row (cx : Nat) (bs : List Byte) (row : Nat) (fb : Vector RowBits 32) (hit : Bool)
    (hlen : bs.length ≤ 32) (r : Fin 32) :
    (drawRows cx bs row (fb, hit)).1[r.val] =
      fb[r.val] ^^^ ((bs[(r.val + 32 - row % 32) % 32]?).elim 0 fun b => rowMask b cx) := by
  have hr := r.isLt
  induction bs generalizing row fb hit with
  | nil => simp [drawRows]
  | cons b bs ih =>
    simp only [List.length_cons] at hlen
    simp only [drawRows]
    rw [ih _ _ _ (by omega)]
    by_cases h : row % 32 = r.val
    · have h1 : (r.val + 32 - row % 32) % 32 = 0 := by omega
      have h2 : (r.val + 32 - (row + 1) % 32) % 32 = 31 := by omega
      have h3 : bs[31]? = none := by
        rw [List.getElem?_eq_none_iff]
        omega
      simp [h2, h3, h]
    · obtain ⟨k, hk⟩ : ∃ k, (r.val + 32 - row % 32) % 32 = k + 1 := ⟨(r.val + 32 - row % 32) % 32 - 1, by omega⟩
      have h2 : (r.val + 32 - (row + 1) % 32) % 32 = k := by omega
      simp [hk, h2, h]

/-- The collision flag after the loop: some sprite row shared a set pixel with the framebuffer before it. -/
theorem drawRows_hit (cx : Nat) (bs : List Byte) (row : Nat) (fb : Vector RowBits 32) (hit : Bool)
    (hlen : bs.length ≤ 32) :
    (drawRows cx bs row (fb, hit)).2 = true ↔
      hit = true ∨ ∃ r : Fin 32, ∃ b, bs[(r.val + 32 - row % 32) % 32]? = some b ∧ fb[r.val] &&& rowMask b cx ≠ 0 := by
  induction bs generalizing row fb hit with
  | nil => simp [drawRows]
  | cons b bs ih =>
    simp only [List.length_cons] at hlen
    simp only [drawRows]
    rw [ih _ _ _ (by omega)]
    have hlt : row % 32 < 32 := Nat.mod_lt _ (by decide)
    constructor
    · rintro (h | ⟨r, c, hc, hne⟩)
      · rcases Bool.or_eq_true_iff.1 h with h | h
        · exact Or.inl h
        · refine Or.inr ⟨⟨row % 32, hlt⟩, b, ?_, by simpa using h⟩
          have : (row % 32 + 32 - row % 32) % 32 = 0 := by omega
          simp
      · right
        have hr := r.isLt
        have hk : (r.val + 32 - (row + 1) % 32) % 32 < bs.length := (List.getElem?_eq_some_iff.1 hc).1
        have hne' : row % 32 ≠ r.val := by
          intro e
          omega
        refine ⟨r, c, ?_, ?_⟩
        · have : (r.val + 32 - row % 32) % 32 = (r.val + 32 - (row + 1) % 32) % 32 + 1 := by omega
          rw [this, List.getElem?_cons_succ, hc]
        · simpa [hne'] using hne
    · rintro (h | ⟨r, c, hc, hne⟩)
      · simp [h]
      · have hr := r.isLt
        by_cases h : row % 32 = r.val
        · left
          have h1 : (r.val + 32 - row % 32) % 32 = 0 := by omega
          rw [h1] at hc
          simp only [List.getElem?_cons_zero, Option.some.injEq] at hc
          subst hc
          have hne' : ¬ fb[r.val] &&& rowMask b cx = 0#64 := hne
          simp [h, hne']
        · right
          obtain ⟨k, hk⟩ : ∃ k, (r.val + 32 - row % 32) % 32 = k + 1 := ⟨(r.val + 32 - row % 32) % 32 - 1, by omega⟩
          have h2 : (r.val + 32 - (row + 1) % 32) % 32 = k := by omega
          rw [hk, List.getElem?_cons_succ] at hc
          exact ⟨r, c, by rw [h2, hc], by simpa [h] using hne⟩

/-! ## The stages of a step -/

/-- All that the first two stages can do. -/
theorem State.fetchInstr_eq (s : State) :
    s.fetchInstr =
      if s.pc = 0xFFF then .error (.addressSpaceViolation .fetch s.pc 2)
      else decodeStage (s.byte s.pc ++ s.byte (s.pc + 1)) := by
  unfold State.fetchInstr
  rw [State.fetchAt_eq]
  split <;> rfl

/-- The decoder refuses a word by its own name and by no other. -/
theorem decode_error {w : Word} {e : DecodeError} (h : decode w = .error e) : e = .unrecognizedOpcode w := by
  unfold decode at h
  split at h
  · simp at h
  · simpa using h.symm

theorem decodeStage_of_ok {w : Word} {i : Instr} (h : decode w = .ok i) : decodeStage w = .ok i := by
  simp [decodeStage, h, Except.mapError]

theorem decodeStage_of_error {w : Word} {e : DecodeError} (h : decode w = .error e) :
    decodeStage w = .error (.unrecognizedOpcode w) := by
  obtain rfl := decode_error h
  simp [decodeStage, h, Except.mapError, faultOfDecodeError]

/-- A step answers its own state, or executes the instruction fetched, or takes a fault of the first two stages. -/
theorem step_cases (s : State) :
    (s.err ≠ none ∧ step s = .next s) ∨
    (s.err = none ∧ ∃ i, s.fetchInstr = .ok i ∧ step s = exec i s) ∨
    (s.err = none ∧ ∃ e, s.fetchInstr = .error e ∧ step s = .next (s.raise e)) := by
  unfold step State.halted
  cases he : s.err with
  | some e => simp
  | none =>
    cases hf : s.fetchInstr with
    | ok i => simp
    | error e => simp

/-- All that the Execute transaction can do. -/
theorem execute_cases (w : Word) (s : State) :
    (s.err ≠ none ∧ execute w s = .next s) ∨
    (s.err = none ∧ ∃ i, decode w = .ok i ∧ execute w s = exec i s) ∨
    (s.err = none ∧ (∃ e, decode w = .error e) ∧ execute w s = .next (s.raise (.unrecognizedOpcode w))) := by
  unfold execute State.halted
  cases he : s.err with
  | some e => simp
  | none =>
    cases hd : decode w with
    | ok i => simp [decodeStage_of_ok hd]
    | error e => simp [decodeStage_of_error hd]

/-- A program that fits is copied and nothing else happens. -/
theorem State.loadProgram_of_fits (s : State) {bs : List Byte} (h : bs.length ≤ 3584) :
    s.loadProgram bs = s.store 0x200 bs := by
  have : ¬ Config.progBase.toNat + bs.length > Config.addrMax + 1 := by
    simp [Config.progBase, Config.addrMax]
    omega
  unfold State.loadProgram
  rw [if_neg this]
  rfl

/-- A program that does not fit latches the load fault, or keeps the fault latched before. -/
theorem State.loadProgram_of_too_long (s : State) {bs : List Byte} (h : 3584 < bs.length) :
    s.loadProgram bs = if s.halted then s else s.raise (.addressSpaceViolation .load 0x200 bs.length) := by
  have : Config.progBase.toNat + bs.length > Config.addrMax + 1 := by
    simp [Config.progBase, Config.addrMax]
    omega
  unfold State.loadProgram
  rw [if_pos this]
  rfl

/-! ## The drawing of a sprite -/

theorem State.drawn_eq (s : State) (col row : Byte) (bs : List Byte) :
    s.drawn col row bs =
      State.setFlag { s with fb := (drawRows (col.toNat % 64) bs (row.toNat % 32) (s.fb, false)).1 }
        (drawRows (col.toNat % 64) bs (row.toNat % 32) (s.fb, false)).2 := rfl

@[simp] theorem State.drawn_fb (s : State) (col row : Byte) (bs : List Byte) :
    (s.drawn col row bs).fb = (drawRows (col.toNat % 64) bs (row.toNat % 32) (s.fb, false)).1 := rfl

theorem State.reg_drawn_vf (s : State) (col row : Byte) (bs : List Byte) :
    (s.drawn col row bs).reg 15 = flagByte (drawRows (col.toNat % 64) bs (row.toNat % 32) (s.fb, false)).2 := by
  rw [State.drawn_eq, State.reg_setFlag_vf]

/-! ## The places of a frame -/

theorem mem_bytesAt {a b : Addr} {n : Nat} :
    Place.byte b ∈ bytesAt a n ↔ ∃ k < n, a + BitVec.ofNat 12 k = b := by
  simp [bytesAt]

theorem mem_rowsAt {r : Fin 32} {a n : Nat} : Place.row r ∈ rowsAt a n ↔ ∃ k < n, Fin.ofNat 32 (a + k) = r := by
  simp [rowsAt]

theorem mem_regsTo {x y : RegNum} : Place.reg y ∈ regsTo x ↔ y ≤ x := by
  simp only [regsTo, List.mem_map, List.mem_range, Place.reg.injEq]
  constructor
  · rintro ⟨k, hk, rfl⟩
    have hx := x.isLt
    show k % 16 ≤ x.val
    omega
  · intro h
    exact ⟨y.val, Nat.lt_succ_of_le h, Fin.ext (Nat.mod_eq_of_lt y.isLt)⟩

end Sys2Proof.Machine
end

