-- ==== Sys2Proof/Laws/PerInstr.lean ====
section
/-! SUPPORT. A law of every instruction, constructor by constructor: its encoding carries the fixed bits of the opcode
table's row for its operation. -/

namespace Sys2Proof.Laws.EncodingRow

/-- The word of the instruction fits a row of the opcode table whose operation is the instruction's. -/
def Statement (i : Instr) : Prop :=
  ∃ r ∈ opcodeTable, r.op = i.op ∧ r.fits (encode i) = true

theorem cls : Statement .cls :=
  ⟨⟨.cls, 0xFFFF, 0x00E0⟩, by decide, rfl, by decide⟩

theorem ret : Statement .ret :=
  ⟨⟨.ret, 0xFFFF, 0x00EE⟩, by decide, rfl, by decide⟩

theorem jpAddr (addr : Addr) : Statement (.jpAddr addr) :=
  ⟨⟨.jpAddr, 0xF000, 0x1000⟩, by decide, rfl, beq_of_eq (mask_high _ _)⟩

theorem callAddr (addr : Addr) : Statement (.callAddr addr) :=
  ⟨⟨.callAddr, 0xF000, 0x2000⟩, by decide, rfl, beq_of_eq (mask_high _ _)⟩

theorem seVxKk (x : RegNum) (kk : Byte) : Statement (.seVxKk x kk) :=
  ⟨⟨.seVxKk, 0xF000, 0x3000⟩, by decide, rfl, beq_of_eq (mask_high_of_xk _ _ _)⟩

theorem sneVxKk (x : RegNum) (kk : Byte) : Statement (.sneVxKk x kk) :=
  ⟨⟨.sneVxKk, 0xF000, 0x4000⟩, by decide, rfl, beq_of_eq (mask_high_of_xk _ _ _)⟩

theorem seVxVy (x : RegNum) (y : RegNum) : Statement (.seVxVy x y) :=
  ⟨⟨.seVxVy, 0xF00F, 0x5000⟩, by decide, rfl, beq_of_eq (mask_high_low _ _ _ _)⟩

theorem sneVxVy (x : RegNum) (y : RegNum) : Statement (.sneVxVy x y) :=
  ⟨⟨.sneVxVy, 0xF00F, 0x9000⟩, by decide, rfl, beq_of_eq (mask_high_low _ _ _ _)⟩

theorem ldVxKk (x : RegNum) (kk : Byte) : Statement (.ldVxKk x kk) :=
  ⟨⟨.ldVxKk, 0xF000, 0x6000⟩, by decide, rfl, beq_of_eq (mask_high_of_xk _ _ _)⟩

theorem addVxKk (x : RegNum) (kk : Byte) : Statement (.addVxKk x kk) :=
  ⟨⟨.addVxKk, 0xF000, 0x7000⟩, by decide, rfl, beq_of_eq (mask_high_of_xk _ _ _)⟩

theorem ldVxVy (x : RegNum) (y : RegNum) : Statement (.ldVxVy x y) :=
  ⟨⟨.ldVxVy, 0xF00F, 0x8000⟩, by decide, rfl, beq_of_eq (mask_high_low _ _ _ _)⟩

theorem orVxVy (x : RegNum) (y : RegNum) : Statement (.orVxVy x y) :=
  ⟨⟨.orVxVy, 0xF00F, 0x8001⟩, by decide, rfl, beq_of_eq (mask_high_low _ _ _ _)⟩

theorem andVxVy (x : RegNum) (y : RegNum) : Statement (.andVxVy x y) :=
  ⟨⟨.andVxVy, 0xF00F, 0x8002⟩, by decide, rfl, beq_of_eq (mask_high_low _ _ _ _)⟩

theorem xorVxVy (x : RegNum) (y : RegNum) : Statement (.xorVxVy x y) :=
  ⟨⟨.xorVxVy, 0xF00F, 0x8003⟩, by decide, rfl, beq_of_eq (mask_high_low _ _ _ _)⟩

theorem addVxVy (x : RegNum) (y : RegNum) : Statement (.addVxVy x y) :=
  ⟨⟨.addVxVy, 0xF00F, 0x8004⟩, by decide, rfl, beq_of_eq (mask_high_low _ _ _ _)⟩

theorem subVxVy (x : RegNum) (y : RegNum) : Statement (.subVxVy x y) :=
  ⟨⟨.subVxVy, 0xF00F, 0x8005⟩, by decide, rfl, beq_of_eq (mask_high_low _ _ _ _)⟩

theorem subnVxVy (x : RegNum) (y : RegNum) : Statement (.subnVxVy x y) :=
  ⟨⟨.subnVxVy, 0xF00F, 0x8007⟩, by decide, rfl, beq_of_eq (mask_high_low _ _ _ _)⟩

theorem shrVx (x : RegNum) (y : RegNum) : Statement (.shrVx x y) :=
  ⟨⟨.shrVx, 0xF00F, 0x8006⟩, by decide, rfl, beq_of_eq (mask_high_low _ _ _ _)⟩

theorem shlVx (x : RegNum) (y : RegNum) : Statement (.shlVx x y) :=
  ⟨⟨.shlVx, 0xF00F, 0x800E⟩, by decide, rfl, beq_of_eq (mask_high_low _ _ _ _)⟩

theorem ldIAddr (addr : Addr) : Statement (.ldIAddr addr) :=
  ⟨⟨.ldIAddr, 0xF000, 0xA000⟩, by decide, rfl, beq_of_eq (mask_high _ _)⟩

theorem jpV0Addr (addr : Addr) : Statement (.jpV0Addr addr) :=
  ⟨⟨.jpV0Addr, 0xF000, 0xB000⟩, by decide, rfl, beq_of_eq (mask_high _ _)⟩

theorem rndVxKk (x : RegNum) (kk : Byte) : Statement (.rndVxKk x kk) :=
  ⟨⟨.rndVxKk, 0xF000, 0xC000⟩, by decide, rfl, beq_of_eq (mask_high_of_xk _ _ _)⟩

theorem drwVxVyN (x : RegNum) (y : RegNum) (n : BitVec 4) : Statement (.drwVxVyN x y n) :=
  ⟨⟨.drwVxVyN, 0xF000, 0xD000⟩, by decide, rfl, beq_of_eq (mask_high_of_xyn _ _ _ _)⟩

theorem skpVx (x : RegNum) : Statement (.skpVx x) :=
  ⟨⟨.skpVx, 0xF0FF, 0xE09E⟩, by decide, rfl, beq_of_eq (mask_high_byte _ _ _)⟩

theorem sknpVx (x : RegNum) : Statement (.sknpVx x) :=
  ⟨⟨.sknpVx, 0xF0FF, 0xE0A1⟩, by decide, rfl, beq_of_eq (mask_high_byte _ _ _)⟩

theorem ldVxDt (x : RegNum) : Statement (.ldVxDt x) :=
  ⟨⟨.ldVxDt, 0xF0FF, 0xF007⟩, by decide, rfl, beq_of_eq (mask_high_byte _ _ _)⟩

theorem ldDtVx (x : RegNum) : Statement (.ldDtVx x) :=
  ⟨⟨.ldDtVx, 0xF0FF, 0xF015⟩, by decide, rfl, beq_of_eq (mask_high_byte _ _ _)⟩

theorem ldStVx (x : RegNum) : Statement (.ldStVx x) :=
  ⟨⟨.ldStVx, 0xF0FF, 0xF018⟩, by decide, rfl, beq_of_eq (mask_high_byte _ _ _)⟩

theorem ldVxK (x : RegNum) : Statement (.ldVxK x) :=
  ⟨⟨.ldVxK, 0xF0FF, 0xF00A⟩, by decide, rfl, beq_of_eq (mask_high_byte _ _ _)⟩

theorem addIVx (x : RegNum) : Statement (.addIVx x) :=
  ⟨⟨.addIVx, 0xF0FF, 0xF01E⟩, by decide, rfl, beq_of_eq (mask_high_byte _ _ _)⟩

theorem ldFVx (x : RegNum) : Statement (.ldFVx x) :=
  ⟨⟨.ldFVx, 0xF0FF, 0xF029⟩, by decide, rfl, beq_of_eq (mask_high_byte _ _ _)⟩

theorem ldBVx (x : RegNum) : Statement (.ldBVx x) :=
  ⟨⟨.ldBVx, 0xF0FF, 0xF033⟩, by decide, rfl, beq_of_eq (mask_high_byte _ _ _)⟩

theorem ldMemVx (x : RegNum) : Statement (.ldMemVx x) :=
  ⟨⟨.ldMemVx, 0xF0FF, 0xF055⟩, by decide, rfl, beq_of_eq (mask_high_byte _ _ _)⟩

theorem ldVxMem (x : RegNum) : Statement (.ldVxMem x) :=
  ⟨⟨.ldVxMem, 0xF0FF, 0xF065⟩, by decide, rfl, beq_of_eq (mask_high_byte _ _ _)⟩

end Sys2Proof.Laws.EncodingRow
end

