-- ==== Sys2Proof/Tests/Slice0.lean ====
section
/-! SUPPORT. Tests, each about one step (or one decode) on a small state, with the result the spec gives: T<n> is a
vector of `95_test_vectors.md`, R<n> a rule worked by hand. After them, for each statement with hypotheses, a witness
that meets them. -/

namespace Sys2Proof.Tests

open Sys2Proof.Machine

/-! ## Helpers -/

/-- The reset state with a word where the next step fetches it, and some registers set. -/
def start (w : Word) (rs : List (RegNum × Byte)) : State :=
  rs.foldl (fun s r => s.setReg r.1 r.2) (State.reset.withFetchWord 16 w.toNat)

/-- The same with the index register and bytes at it. -/
def startAt (w : Word) (i : Addr) (bs : List Byte) (rs : List (RegNum × Byte)) : State :=
  let s := start w rs
  { s with i := i, mem := s.mem.writeBytes s.params.font i bs }

/-- A state whose `SP` is given and whose topmost slot in use, if there is one, holds a value. -/
def stacked (w : Word) (sp : Fin 17) (top : Addr) : State :=
  let s := start w []
  { s with sp := sp, stack := s.stack.set! (sp.val - 1) top }

/-- The state an answer goes on with. -/
def goesOn : Answer → Option State
  | .next t => some t
  | .fault _ => none
  | .refused _ => none

/-- What one step leaves in a place, asked by a test on the state after it. -/
def after (s : State) (p : State → Bool) : Bool :=
  (goesOn (step s)).any p

/-! ## Decoding: a word of every instruction, written from the patterns of R64, and the illegal words of R66 -/

theorem test_decode_flow :
    decode 0x00EE = .ok .ret ∧ decode 0x1ABC = .ok (.jpAddr 0xABC) ∧ decode 0x2345 = .ok (.callAddr 0x345) ∧
    decode 0xB678 = .ok (.jpV0Addr 0x678) ∧ decode 0x3412 = .ok (.seVxKk 4 0x12) ∧
    decode 0x4512 = .ok (.sneVxKk 5 0x12) ∧ decode 0x5670 = .ok (.seVxVy 6 7) ∧
    decode 0x9AB0 = .ok (.sneVxVy 10 11) := by decide

theorem test_decode_alu :
    decode 0x6A55 = .ok (.ldVxKk 10 0x55) ∧ decode 0x7B01 = .ok (.addVxKk 11 0x01) ∧
    decode 0x8120 = .ok (.ldVxVy 1 2) ∧ decode 0x8121 = .ok (.orVxVy 1 2) ∧ decode 0x8122 = .ok (.andVxVy 1 2) ∧
    decode 0x8123 = .ok (.xorVxVy 1 2) ∧ decode 0x8AB4 = .ok (.addVxVy 10 11) ∧ decode 0x8125 = .ok (.subVxVy 1 2) := by
  decide

theorem test_decode_shift_random :
    decode 0x8127 = .ok (.subnVxVy 1 2) ∧ decode 0x8A36 = .ok (.shrVx 10 3) ∧ decode 0x8C5E = .ok (.shlVx 12 5) ∧
    decode 0xC50F = .ok (.rndVxKk 5 0x0F) := by decide

theorem test_decode_index_memory :
    decode 0xA123 = .ok (.ldIAddr 0x123) ∧ decode 0xF11E = .ok (.addIVx 1) ∧ decode 0xF229 = .ok (.ldFVx 2) ∧
    decode 0xF733 = .ok (.ldBVx 7) ∧ decode 0xFF55 = .ok (.ldMemVx 15) ∧ decode 0xF165 = .ok (.ldVxMem 1) := by decide

theorem test_decode_display : decode 0x00E0 = .ok .cls ∧ decode 0xD125 = .ok (.drwVxVyN 1 2 5) := by decide

theorem test_decode_keypad_timers :
    decode 0xE19E = .ok (.skpVx 1) ∧ decode 0xE2A1 = .ok (.sknpVx 2) ∧ decode 0xF30A = .ok (.ldVxK 3) ∧
    decode 0xF407 = .ok (.ldVxDt 4) ∧ decode 0xF515 = .ok (.ldDtVx 5) ∧ decode 0xF618 = .ok (.ldStVx 6) := by decide

/-- T145 to T155. -/
theorem test_decode_illegal :
    [0x0000, 0x0123, 0x5AB1, 0x8AB8, 0x8ABF, 0x9AB1, 0xE19F, 0xF100, 0xF175, 0x00FD, 0xFFFF].all
      (fun w : Word => decide (decode w = .error (.unrecognizedOpcode w))) = true := by decide

/-- R60: the high byte stands first, and what follows an instruction is left over. -/
theorem test_decode_bytes :
    decodeBytes [0x1A, 0xBC, 0x77] = .ok (.jpAddr 0xABC, [0x77]) ∧ decodeBytes [0x1A] = .error .truncated ∧
    encodeBytes (.drwVxVyN 1 2 5) = [0xD1, 0x25] := by decide

/-- R70: tags in table order; R63: the fields are extracted from an illegal word too. -/
theorem test_decoder_output :
    (decoderOutput 0xF165).tag = some 33 ∧ (decoderOutput 0x8A36).tag = some 17 ∧
    decoderOutput 0x5AB1 = ⟨false, none, ⟨10, 11, 1, 0xB1, 0xAB1⟩⟩ := by decide

/-- R71: the assembler's texts, and that it emits `y = 0` for a shift. -/
theorem test_assembler :
    (Instr.drwVxVyN 10 15 5).asm = "DRW VA, VF, 5" ∧ (Instr.jpV0Addr 0x200).asm = "JP V0, 512" ∧
    (Instr.shrVx 3 9).asm = "SHR V3" ∧ (Instr.shrVx 3 9).assembled = .shrVx 3 0 ∧
    encode (Instr.shlVx 3 9).assembled = 0x830E := by decide

theorem test_table_words :
    decodeTableWord 16 0x1ABC = some (.jpAddr 0xABC) ∧ decodeTableWord 16 0xF165 = some (.ldVxMem 1) ∧
    decodeTableWord 16 0x0123 = none := by decide

/-! ## WellFormed: for each check a term it refuses -/

/-- R66, family by family: 0, 5, 8, 9, E, F. -/
theorem test_legal_word_refuses :
    [0x0000, 0x00E1, 0x5121, 0x8128, 0x812F, 0x9121, 0xE19F, 0xF166].all (fun w : Word => !legalWord w) = true := by
  decide

theorem test_legal_word_accepts :
    [0x00E0, 0x00EE, 0x1000, 0x5120, 0x812E, 0x9120, 0xD010, 0xE1A1, 0xF165].all (fun w : Word => legalWord w)
      = true := by decide

/-- R71: an address, a register, an immediate and a height out of range, in each format that has one. -/
theorem test_well_formed_refuses :
    (RawInstr.mk .jpAddr 0 0 0 0 0x1000).wellFormed = false ∧ (RawInstr.mk .ldVxKk 16 0 0 0 0).wellFormed = false ∧
    (RawInstr.mk .ldVxKk 0 0 0 256 0).wellFormed = false ∧ (RawInstr.mk .addVxVy 16 0 0 0 0).wellFormed = false ∧
    (RawInstr.mk .addVxVy 0 16 0 0 0).wellFormed = false ∧ (RawInstr.mk .drwVxVyN 16 0 0 0 0).wellFormed = false ∧
    (RawInstr.mk .drwVxVyN 0 16 0 0 0).wellFormed = false ∧ (RawInstr.mk .drwVxVyN 0 0 16 0 0).wellFormed = false ∧
    (RawInstr.mk .skpVx 16 0 0 0 0).wellFormed = false := by decide

theorem test_well_formed_accepts :
    (RawInstr.mk .jpAddr 0 0 0 0 0xFFF).instr = some (.jpAddr 0xFFF) ∧
    (RawInstr.mk .drwVxVyN 15 15 15 0 0).instr = some (.drwVxVyN 15 15 15) ∧
    (RawInstr.mk .ldVxKk 15 0 0 255 0).instr = some (.ldVxKk 15 255) ∧
    (RawInstr.mk .drwVxVyN 0 0 16 0 0).instr = none := by decide

/-! ## Control transfer -/

/-- T1. -/
theorem test_jump : after (start 0x1ABC []) (fun t => t.pc == 0xABC) = true := by decide

/-- T4, T6. -/
theorem test_call :
    after (start 0x2ABC []) (fun t => t.sp == 1 && t.stack[0] == 0x202 && t.pc == 0xABC) = true ∧
    after (stacked 0x2300 15 0x111) (fun t => t.sp == 16 && t.stack[15] == 0x202 && t.pc == 0x300) = true := by decide

/-- T7. -/
theorem test_call_overflow :
    after (stacked 0x2300 16 0x111) (fun t => t.err == some .stackOverflow && t.pc == 0x200 && t.sp == 16) = true := by
  decide

/-- T8, T9: the popped slot keeps its value. -/
theorem test_return :
    after (stacked 0x00EE 1 0x206) (fun t => t.sp == 0 && t.pc == 0x206 && t.stack[0] == 0x206) = true ∧
    after (stacked 0x00EE 16 0x123) (fun t => t.sp == 15 && t.pc == 0x123) = true := by decide

/-- T10. -/
theorem test_return_underflow :
    after (start 0x00EE []) (fun t => t.err == some .stackUnderflow && t.pc == 0x200) = true := by decide

/-- T13, T14. -/
theorem test_jump_plus_register_zero :
    after (start 0xBFFF [(0, 0xFF)]) (fun t => t.pc == 0x0FE) = true ∧
    after (start 0xB204 [(1, 0x55)]) (fun t => t.pc == 0x204) = true := by decide

/-- T15, T16. -/
theorem test_skip_if_equal_immediate :
    after (start 0x3342 [(3, 0x42)]) (fun t => t.pc == 0x204) = true ∧
    after (start 0x3343 [(3, 0x42)]) (fun t => t.pc == 0x202) = true := by decide

/-- T17, T18. -/
theorem test_skip_if_not_equal_immediate :
    after (start 0x4342 [(3, 0x42)]) (fun t => t.pc == 0x202) = true ∧
    after (start 0x4343 [(3, 0x42)]) (fun t => t.pc == 0x204) = true := by decide

/-- T19, T20. -/
theorem test_skip_if_equal_registers :
    after (start 0x5120 [(1, 7), (2, 7)]) (fun t => t.pc == 0x204) = true ∧
    after (start 0x5120 [(1, 7), (2, 8)]) (fun t => t.pc == 0x202) = true := by decide

/-- T22, T23. -/
theorem test_skip_if_not_equal_registers :
    after (start 0x9120 [(1, 7), (2, 8)]) (fun t => t.pc == 0x204) = true ∧
    after (start 0x9120 [(1, 7), (2, 7)]) (fun t => t.pc == 0x202) = true := by decide

/-! ## Register, arithmetic, logic, shift, random -/

/-- T29, T30. -/
theorem test_load_immediate :
    after (start 0x6A42 []) (fun t => t.reg 10 == 0x42 && t.pc == 0x202) = true ∧
    after (start 0x6F01 [(15, 0x55)]) (fun t => t.reg 15 == 0x01) = true := by decide

/-- T32. -/
theorem test_add_immediate_wraps :
    after (start 0x7301 [(3, 0xFF), (15, 7)]) (fun t => t.reg 3 == 0 && t.reg 15 == 7) = true := by decide

/-- T34. -/
theorem test_move : after (start 0x8120 [(1, 0x11), (2, 0x22)]) (fun t => t.reg 1 == 0x22 && t.reg 2 == 0x22) = true := by
  decide

/-- T35. -/
theorem test_or : after (start 0x8121 [(1, 0x0C), (2, 0x0A), (15, 7)]) (fun t => t.reg 1 == 0x0E && t.reg 15 == 7) = true := by
  decide

/-- T36. -/
theorem test_and : after (start 0x8122 [(1, 0x0C), (2, 0x0A), (15, 7)]) (fun t => t.reg 1 == 0x08 && t.reg 15 == 7) = true := by
  decide

/-- T37. -/
theorem test_xor : after (start 0x8123 [(1, 0x0C), (2, 0x0A), (15, 7)]) (fun t => t.reg 1 == 0x06 && t.reg 15 == 7) = true := by
  decide

/-- T41, T39. -/
theorem test_add :
    after (start 0x8124 [(1, 0xFF), (2, 0xFF)]) (fun t => t.reg 1 == 0xFE && t.reg 15 == 1) = true ∧
    after (start 0x8124 [(1, 0x10), (2, 0x20), (15, 1)]) (fun t => t.reg 1 == 0x30 && t.reg 15 == 0) = true := by decide

/-- T44, T45: the flag register as destination and as source. -/
theorem test_add_flag_register :
    after (start 0x8F14 [(15, 0x10), (1, 0x20)]) (fun t => t.reg 15 == 0) = true ∧
    after (start 0x81F4 [(1, 0x01), (15, 0xFF)]) (fun t => t.reg 1 == 0 && t.reg 15 == 1) = true := by decide

/-- T48, T49. -/
theorem test_sub :
    after (start 0x8125 [(1, 0x10), (2, 0x20), (15, 1)]) (fun t => t.reg 1 == 0xF0 && t.reg 15 == 0) = true ∧
    after (start 0x8125 [(1, 0x33), (2, 0x33)]) (fun t => t.reg 1 == 0 && t.reg 15 == 1) = true := by decide

/-- T52. -/
theorem test_sub_flag_register : after (start 0x8F15 [(15, 5), (1, 3)]) (fun t => t.reg 15 == 1) = true := by decide

/-- T56, T57. -/
theorem test_subn :
    after (start 0x8127 [(1, 0x20), (2, 0x10), (15, 1)]) (fun t => t.reg 1 == 0xF0 && t.reg 15 == 0) = true ∧
    after (start 0x8127 [(1, 0x33), (2, 0x33)]) (fun t => t.reg 1 == 0 && t.reg 15 == 1) = true := by decide

/-- T62, T63: `y` is ignored. -/
theorem test_shift_right :
    after (start 0x8106 [(1, 0xFF)]) (fun t => t.reg 1 == 0x7F && t.reg 15 == 1) = true ∧
    after (start 0x8126 [(1, 4), (2, 0xFF)]) (fun t => t.reg 1 == 2 && t.reg 2 == 0xFF) = true := by decide

/-- T65. -/
theorem test_shift_right_flag_register : after (start 0x8F06 [(15, 2)]) (fun t => t.reg 15 == 0) = true := by decide

/-- T66, T69. -/
theorem test_shift_left :
    after (start 0x810E [(1, 0x81)]) (fun t => t.reg 1 == 2 && t.reg 15 == 1) = true ∧
    after (start 0x812E [(1, 1), (2, 0x80)]) (fun t => t.reg 1 == 2 && t.reg 15 == 0) = true := by decide

/-- T72, as far as it does not fix the byte drawn: the masked bits are 0, `VF` is untouched. -/
theorem test_random :
    (execRndVxKk 5 0x0F (start 0xC50F [(15, 7)])) =
      .next (((start 0xC50F [(15, 7)]).draw.2.setReg 5 ((Config.rngNext 0).1 &&& 0x0F)).setPc 0x202) := by
  rfl

/-! ## Index register, loads and stores -/

/-- T76. -/
theorem test_load_index : after (startAt 0xAFFF 0x123 [] []) (fun t => t.i == 0xFFF && t.pc == 0x202) = true := by decide

/-- T78. -/
theorem test_add_to_index_wraps :
    after (startAt 0xF11E 0xFFF [] [(1, 2)]) (fun t => t.i == 0x001 && t.reg 15 == 0) = true := by decide

/-- T82, T84. -/
theorem test_glyph_address :
    after (start 0xF229 [(2, 0x0F)]) (fun t => t.i == 0x04B) = true ∧
    after (start 0xF229 [(2, 0xFF)]) (fun t => t.i == 0x4FB) = true := by decide

/-- T85, T90. -/
theorem test_store_decimal :
    after (startAt 0xF033 0x300 [] [(0, 0x7B)]) (fun t => t.mem.bytes t.params.font 0x300 3 == [1, 2, 3] && t.i == 0x300) = true ∧
    after (startAt 0xF733 0xFFD [] [(7, 0xFF)]) (fun t => t.mem.bytes t.params.font 0xFFD 3 == [2, 5, 5]) = true := by decide

/-- T91. -/
theorem test_store_decimal_faults :
    after (startAt 0xF733 0xFFE [] [(7, 0xFF)])
      (fun t => t.err == some (.addressSpaceViolation .data 0xFFE 3) && t.pc == 0x200 && t.byte 0xFFE == 0) = true := by
  decide

/-- T93, T97: the font area is writable. -/
theorem test_bulk_store :
    after (startAt 0xF255 0x300 [] [(0, 0x11), (1, 0x22), (2, 0x33), (3, 0x44)])
      (fun t => t.mem.bytes t.params.font 0x300 4 == [0x11, 0x22, 0x33, 0] && t.i == 0x300) = true ∧
    after (startAt 0xF155 0x002 [] [(0, 0x12), (1, 0x34)]) (fun t => t.mem.bytes t.params.font 0x002 2 == [0x12, 0x34]) = true := by
  decide

/-- T95. -/
theorem test_bulk_store_faults :
    after (startAt 0xFF55 0xFF1 [] [(0, 0xA0)])
      (fun t => t.err == some (.addressSpaceViolation .data 0xFF1 16) && t.pc == 0x200 && t.byte 0xFF1 == 0) = true := by
  decide

/-- T98, T100. -/
theorem test_bulk_load :
    after (startAt 0xF265 0x300 [0x11, 0x22, 0x33, 0x44] [(3, 0x99)])
      (fun t => t.reg 0 == 0x11 && t.reg 2 == 0x33 && t.reg 3 == 0x99 && t.i == 0x300) = true ∧
    after (start 0xF465 []) (fun t => t.reg 0 == 0xF0 && t.reg 1 == 0x90 && t.reg 4 == 0xF0) = true := by decide

/-- T101. -/
theorem test_bulk_load_faults :
    after (startAt 0xFF65 0xFF1 [] [(0, 0x77)])
      (fun t => t.err == some (.addressSpaceViolation .data 0xFF1 16) && t.reg 0 == 0x77) = true := by decide

/-! ## Framebuffer -/

/-- T104. -/
theorem test_clear_screen :
    after { start 0x00E0 [(15, 1)] with fb := Vector.replicate 32 1 }
      (fun t => t.fb[3] == 0 && t.fb[31] == 0 && t.reg 15 == 1 && t.pc == 0x202) = true := by decide

/-- T105, T112: the wrap at the right edge and at the bottom. -/
theorem test_draw_wraps :
    after (startAt 0xD011 0x300 [0xFF] [(0, 0x3C)]) (fun t => t.fb[0] == 0xF00000000000000F && t.reg 15 == 0) = true ∧
    after (startAt 0xD012 0x300 [0xFF, 0x81] [(1, 0x1F)])
      (fun t => t.fb[0] == 0x8100000000000000 && t.fb[31] == 0xFF00000000000000) = true := by decide

/-- T106, T121: a collision, and `VF` read as the column before the flag is written. -/
theorem test_draw_flag :
    after { startAt 0xD011 0x300 [0x43] [] with fb := (Vector.replicate 32 0).set 0 0xDC00000000000000 }
      (fun t => t.fb[0] == 0x9F00000000000000 && t.reg 15 == 1) = true ∧
    after (startAt 0xDF11 0x300 [0x80] [(15, 2), (1, 1)]) (fun t => t.fb[1] == 0x2000000000000000 && t.reg 15 == 0) = true := by
  decide

/-! ## Keypad and timers -/

/-- T124, T126. -/
theorem test_skip_if_pressed :
    after { start 0xE19E [(1, 3)] with key := 0x0008 } (fun t => t.pc == 0x204) = true ∧
    after { start 0xE19E [(1, 0x13)] with key := 0x0008 } (fun t => t.pc == 0x202) = true := by decide

/-- T128, T130. -/
theorem test_skip_if_not_pressed :
    after { start 0xE1A1 [(1, 3)] with key := 0x0008 } (fun t => t.pc == 0x202) = true ∧
    after { start 0xE1A1 [(1, 0x10)] with key := 0xFFFF } (fun t => t.pc == 0x204) = true := by decide

/-- T131. -/
theorem test_key_wait_waits : after (start 0xF00A [(0, 0x77)]) (fun t => t.pc == 0x200 && t.reg 0 == 0x77) = true := by
  decide

/-- T133. -/
theorem test_key_wait_takes_the_lowest :
    after { start 0xF00A [(0, 0x77)] with key := 0x0084 } (fun t => t.pc == 0x202 && t.reg 0 == 2) = true := by decide

/-- T137. -/
theorem test_read_delay_timer :
    after { start 0xF107 [] with dt := 2, st := 9 } (fun t => t.reg 1 == 2 && t.dt == 2) = true := by decide

/-- T139. -/
theorem test_write_delay_timer : after { start 0xF015 [] with dt := 0x10 } (fun t => t.dt == 0 && t.st == 0) = true := by
  decide

/-- T141. -/
theorem test_write_sound_timer :
    after { start 0xF418 [(4, 0xFF)] with dt := 5 } (fun t => t.st == 0xFF && t.dt == 5) = true := by decide

/-! ## The step, its faults, reset and the host's transactions -/

/-- T142, T143, T144: fetch at 0xFFF, at 0xFFE and at an odd address. -/
theorem test_fetch :
    after { State.reset with pc := 0xFFF }
      (fun t => t.err == some (.addressSpaceViolation .fetch 0xFFF 2) && t.pc == 0xFFF) = true ∧
    after ({ State.reset with pc := 0xFFE }.withFetchWord 16 0x6A01) (fun t => t.reg 10 == 1 && t.pc == 0x000) = true ∧
    after ({ State.reset with pc := 0x201 }.withFetchWord 16 0x6A01) (fun t => t.reg 10 == 1 && t.pc == 0x203) = true := by
  decide

/-- T145, T156: memory nothing has written, and the font. -/
theorem test_illegal_words_fault :
    after State.reset (fun t => t.err == some (.unrecognizedOpcode 0x0000) && t.pc == 0x200) = true ∧
    after { State.reset with pc := 0x000 } (fun t => t.err == some (.unrecognizedOpcode 0xF090)) = true := by decide

/-- R166: a halted core changes nothing, and the first fault stays. -/
theorem test_halted :
    after { start 0x00EE [] with err := some .stackOverflow } (fun t => t.err == some .stackOverflow && t.pc == 0x200)
      = true := by decide

/-- R161: the codes of the faults. -/
theorem test_error_codes :
    errCode none = 0 ∧ errCode (some (.unrecognizedOpcode 0)) = 1 ∧
    errCode (some (.addressSpaceViolation .load 0x200 4000)) = 2 ∧ errCode (some .stackOverflow) = 3 ∧
    errCode (some .stackUnderflow) = 4 := by decide

/-- R28, R44: reset; glyph F is the last of the font. -/
theorem test_reset :
    State.reset.pc = 0x200 ∧ State.reset.sp = 0 ∧ State.reset.err = none ∧
    State.reset.mem.bytes State.reset.params.font 0x04B 6 = [0xF0, 0x80, 0xF0, 0x80, 0x80, 0x00] := by decide

/-- R147: one tick, and a timer at zero. -/
theorem test_tick : (State.tick { State.reset with dt := 5, st := 0 }).dt = 4 ∧
    (State.tick { State.reset with dt := 5, st := 0 }).st = 0 := by decide

/-- R148. -/
theorem test_load_program : (State.reset.loadProgram [0x12, 0x34]).mem.bytes State.reset.params.font 0x200 3 = [0x12, 0x34, 0x00] := by decide

/-- R28's reset contents are canonical after a write is undone, and a write that changes nothing lists nothing. -/
theorem test_memory_canonical :
    let f := State.reset.params.font
    ((State.reset.mem.write f 0x300 5).write f 0x300 0) = [] ∧ State.reset.mem.write f 0x000 0xF0 = [] ∧
    (State.reset.mem.write f 0x300 5).write f 0x250 6 = [(0x250, 6), (0x300, 5)] := by decide

/-- R6: a machine whose parameters are not the defaults, here a step of 4 bytes and another font byte. -/
theorem test_parameters :
    let p : Config.Parameters := { Config.Parameters.default 9 with step := 4, font := Vector.replicate 80 0x11 }
    after ((State.resetWith p).withFetchWord 16 0x6A01) (fun t => t.pc == 0x204 && t.reg 10 == 1 && t.rng == 9) = true ∧
    after ({ State.resetWith p with i := 0x04F }.withFetchWord 16 0xF065) (fun t => t.reg 0 == 0x11) = true := by decide

/-! ## Witnesses: for each statement with hypotheses, a state and operands that meet them, at the ends of the ranges -/

/-- A halted state. -/
def haltedState : State :=
  { State.reset with err := some .stackOverflow }

theorem witness_EncodeInvertsDecode : decode 0x8A36 = .ok (.shrVx 10 3) ∧ decode 0xFF65 = .ok (.ldVxMem 15) := by decide

theorem witness_IllegalWordsAreTheFamilyTable :
    State.reset.err = none ∧ legalWord 0x0000 = false ∧ legalWord 0xFFFF = false ∧
    decode 0x0000 = .error (.unrecognizedOpcode 0x0000) := by decide

theorem witness_DecoderIsTheMaskedComparison :
    opcodeTable.length = 34 ∧ ⟨.cls, 0xFFFF, 0x00E0⟩ ∈ opcodeTable ∧ ⟨.ldVxMem, 0xF0FF, 0xF065⟩ ∈ opcodeTable := by decide

theorem witness_StepRunsTheDecodedInstruction :
    haltedState.err ≠ none ∧
    ({ State.reset with pc := 0xFFF }.err = none ∧ { State.reset with pc := 0xFFF }.pc = 0xFFF) ∧
    (let s : State := { State.reset with pc := 0xFFE }.withFetchWord 16 0x6A01
     s.err = none ∧ s.pc ≠ 0xFFF ∧ decode (s.byte s.pc ++ s.byte (s.pc + 1)) = .ok (.ldVxKk 10 1)) ∧
    (let s : State := State.reset
     s.err = none ∧ s.pc ≠ 0xFFF ∧
      decode (s.byte s.pc ++ s.byte (s.pc + 1)) = .error (.unrecognizedOpcode 0x0000)) := by decide

theorem witness_FetchIsBigEndian :
    (0xFFE : Addr).toNat + 1 ≤ 0xFFF ∧ (0x000 : Addr).toNat + 1 ≤ 0xFFF ∧ 0xFFF < (0xFFF : Addr).toNat + 1 := by decide

theorem witness_ExecuteIsStepWithoutFetch :
    (State.reset.err = none ∧ decode 0x00E0 = .ok .cls ∧ decode 0x00E1 = .error (.unrecognizedOpcode 0x00E1)) ∧
    haltedState.err ≠ none ∧
    State.reset.fetchAt State.reset.pc = .ok 0x0000 := by decide

theorem witness_HaltedCoreStaysHalted :
    haltedState.err = some .stackOverflow ∧ Transaction.tick ≠ .reset ∧ ∃ t, perform .tick haltedState = .next t :=
  ⟨rfl, by decide, _, rfl⟩

theorem witness_FaultsArePrecise_step :
    State.reset.err = none ∧ ∃ t, perform .step State.reset = .next t ∧ t.err = some (.unrecognizedOpcode 0x0000) :=
  ⟨rfl, _, rfl, by decide⟩

theorem witness_FaultsArePrecise_execute :
    State.reset.err = none ∧ ∃ t, perform (.execute 0x00EE) State.reset = .next t ∧ t.err = some .stackUnderflow :=
  ⟨rfl, _, rfl, by decide⟩

theorem witness_FaultsArePrecise_load :
    ∃ t, perform (.loadProgram (List.replicate 3585 0)) State.reset = .next t ∧
      t.err = some (.addressSpaceViolation .load 0x200 3585) := by
  have h : Config.progBase.toNat + (List.replicate 3585 (0 : Byte)).length > Config.addrMax + 1 := by
    rw [List.length_replicate]
    decide
  refine ⟨State.reset.raise (.addressSpaceViolation .load 0x200 3585), ?_, rfl⟩
  show Host.Outcome.next (State.reset.loadProgram (List.replicate 3585 0)) = _
  unfold State.loadProgram
  rw [if_pos h, List.length_replicate]
  rfl

theorem witness_TransactionsRaiseExactlyTheListedFaults :
    State.reset.err = none ∧ stepFault State.reset = some (.unrecognizedOpcode 0x0000) ∧
    stepFault (start 0x00EE []) = some .stackUnderflow ∧ stepFault (start 0x6A42 []) = none := by decide

theorem witness_StepKeepsMemoryCanonical :
    let s := startAt 0xF155 0xFFE [] [(0, 1), (1, 2)]
    s.mem.wf s.params.font = true ∧ ∃ t, step s = .next t ∧ t.mem.length = 4 :=
  ⟨by decide, _, rfl, by decide⟩

theorem witness_TransactionsKeepMemoryCanonical :
    State.reset.mem.wf State.reset.params.font = true ∧ ∃ t, perform (.loadProgram [0x12, 0x00]) State.reset = .next t ∧ t.mem.length = 1 :=
  ⟨rfl, _, rfl, by decide⟩

theorem witness_ResetGivesTheTableValues :
    (0x000 : Addr).toNat < 80 ∧ (0x04F : Addr).toNat < 80 ∧ 80 ≤ (0x050 : Addr).toNat ∧ 80 ≤ (0xFFF : Addr).toNat := by
  decide

theorem witness_ResetAloneHasNoProgram : (Config.Parameters.default 7).pcReset = 0x200 := by decide

theorem witness_ParametersNeverChange : ∃ t, perform .reset haltedState = .next t ∧ t.err = none :=
  ⟨_, rfl, rfl⟩

theorem witness_TagsNumberTheTableRows : (decoderOutput 0xF065).tag = some 33 ∧ (decoderOutput 0x00E0).tag = some 0 := by
  decide

theorem witness_LoadProgramCopiesOrFaults :
    ([] : List Byte).length ≤ 3584 ∧ (List.replicate 3584 (0 : Byte)).length ≤ 3584 ∧
    3584 < (List.replicate 3585 (0 : Byte)).length ∧ State.reset.err = none ∧ haltedState.err ≠ none := by
  rw [List.length_replicate, List.length_replicate]
  decide

/-- A schedule that keeps the duties; and two that do not: a step with no program loaded, an Execute. -/
theorem witness_DutifulRunsComplete :
    keepsDuties (.booting false) [.seed 7, .tick, .loadProgram [0x12, 0x00], .setKeys 1, .step, .tick, .step, .observe]
      = true ∧
    keepsDuties (.booting false) [.step] = false ∧
    keepsDuties (.booting false) [.loadProgram [], .execute 0x00E0] = false := by decide

theorem witness_DataRangesAreCheckedWhole :
    (0 < 3 ∧ (0xFFE : Addr).toNat + 3 - 1 > 0xFFF) ∧ ¬ (0 < 3 ∧ (0xFFD : Addr).toNat + 3 - 1 > 0xFFF) ∧
    ¬ (0 < 0 ∧ (0xFFF : Addr).toNat + 0 - 1 > 0xFFF) ∧ (0xFFC : Addr).toNat < (0xFFD : Addr).toNat ∧
    (0x300 : Addr).toNat + [(1 : Byte), 2].length ≤ (0x302 : Addr).toNat := by decide

theorem witness_TimersChangeOnlyByTheirWriters :
    (∃ t, perform .step (start 0xF415 [(4, 9)]) = .next t ∧ t.dt ≠ (start 0xF415 [(4, 9)]).dt) ∧
    ∃ t, perform .step (start 0xF418 [(4, 9)]) = .next t ∧ t.st ≠ (start 0xF418 [(4, 9)]).st :=
  ⟨⟨_, rfl, by decide⟩, _, rfl, by decide⟩

theorem witness_InstructionsWriteOnlyTheirPlaces :
    (∃ t, exec (.ldBVx 0) (startAt 0xF033 0xFFD [] []) = .next t ∧ t.err = none) ∧
    (∃ t, exec (.ldBVx 0) (startAt 0xF033 0xFFE [] []) = .next t ∧ t.err ≠ none) ∧
    Place.pc ∈ writesOf (.callAddr 0) (stacked 0 16 0) ∧
    Place.slot 15 ∉ writesOf (.callAddr 0) (stacked 0 16 0) ∧ Place.slot 15 ∈ writesOf (.callAddr 0) (stacked 0 15 0) :=
  ⟨⟨_, rfl, by decide⟩, ⟨_, rfl, by decide⟩, by decide, by decide, by decide⟩

theorem witness_OnlyTheSixWriteTheFlag :
    ((∃ t, exec (.addVxKk 3 1) (start 0x7301 []) = .next t) ∧ writesFlag (.addVxKk 3 1) = false ∧
      namesFlagAsDestination (.addVxKk 3 1) = false) ∧
    ((∃ t, exec (.drwVxVyN 0 1 1) (start 0xD011 []) = .next t) ∧ writesFlag (.drwVxVyN 0 1 1) = true ∧
      ownFault (.drwVxVyN 0 1 1) (start 0xD011 []) = none) :=
  ⟨⟨⟨_, rfl⟩, by decide, by decide⟩, ⟨_, rfl⟩, by decide, by decide⟩

theorem witness_SoundTimerIsNeverRead : ∃ t, step { start 0xF107 [] with st := 9 } = .next t ∧ t.st = 9 :=
  ⟨_, rfl, by decide⟩

/-- Two stacks that agree in the one slot in use and differ above it. -/
theorem witness_UnusedSlotsAreNeverObserved :
    let s := stacked 0x00EE 1 0x206
    let stack' := (Vector.replicate 16 (0x777 : Addr)).set 0 0x206
    (∀ k : Fin 16, k.val < s.sp.val → stack'[k.val] = s.stack[k.val]) ∧ stack' ≠ s.stack ∧ ∃ t, step s = .next t :=
  ⟨by decide, by decide, _, rfl⟩

theorem witness_StackIsLastInFirstOut :
    (stacked 0 16 0x123).sp.val = 16 ∧ (stacked 0 15 0x111).sp.val = (15 : Fin 16).val ∧
    State.reset.sp.val = (0 : Fin 16).val ∧ (stacked 0 16 0x123).sp.val = (15 : Fin 16).val + 1 ∧
    (stacked 0 1 0x123).sp.val = (0 : Fin 16).val + 1 ∧
    State.reset.sp.val + (List.replicate 16 (0x202 : Addr)).length ≤ 16 ∧
    (stacked 0 15 0x111).sp.val + [(0x202 : Addr)].length ≤ 16 := by decide

theorem witness_RowMaskRotatesTheByte :
    0 < 64 ∧ 63 < 64 ∧ (∀ j : Fin 8, (7 : Fin 64).val ≠ (63 + j.val) % 64) ∧
    ∀ j : Fin 8, (8 : Fin 64).val ≠ (0 + j.val) % 64 := by decide

/-- The last sprite that fits, and a sprite with a set pixel on an empty screen. -/
theorem witness_DrawingTwiceRestores :
    let s := startAt 0xD013 0xFFD [0x80, 0x40, 0x20] []
    (0 : RegNum) ≠ 15 ∧ (1 : RegNum) ≠ 15 ∧ s.i.toNat + (3 : BitVec 4).toNat ≤ 4096 ∧
    (∃ k < (3 : BitVec 4).toNat, s.byte (s.i + BitVec.ofNat 12 k) ≠ 0) ∧
    ∃ t, exec (.drwVxVyN 0 1 3) s = .next t ∧ t.reg 15 = 0 :=
  ⟨by decide, by decide, by decide, ⟨0, by decide, by decide⟩, _, rfl, by decide⟩

theorem witness_StandingStill :
    haltedState.halted = true ∧ (start 0x1200 []).parked = true ∧ (start 0xF00A []).waiting = true ∧
    (1 : BitVec 16) ≠ 0 ∧ (start 0x1202 []).parked = false ∧ { start 0xF00A [] with key := 1 }.waiting = false := by
  decide

theorem witness_StoredBytesAreFetchedNext :
    (let s := startAt 0xF155 0x202 [] []
     1 ≤ (1 : RegNum).val ∧ s.i = s.pc + s.params.step ∧ s.i.toNat + (1 : RegNum).val ≤ 0xFFF) ∧
    (let s : State := { State.reset with pc := 0xFFC, i := 0xFFE }
     1 ≤ (1 : RegNum).val ∧ s.i = s.pc + s.params.step ∧ s.i.toNat + (1 : RegNum).val ≤ 0xFFF) := by decide

theorem witness_ReturnPopsThePc :
    (stacked 0 16 0x123).sp.val = (15 : Fin 16).val + 1 ∧ (stacked 0 1 0x206).sp.val = (0 : Fin 16).val + 1 ∧
    State.reset.sp.val = 0 := by decide

theorem witness_CallPushesTheReturnAddress :
    State.reset.sp.val = (0 : Fin 16).val ∧ (stacked 0 15 0x111).sp.val = (15 : Fin 16).val ∧
    (stacked 0 16 0x111).sp.val = 16 := by decide

/-- An `x` that is not the flag register. -/
theorem witness_AddReportsTheCarry : (0 : RegNum) ≠ 15 ∧ (14 : RegNum) ≠ 15 := by decide

theorem witness_SubtractsReportNoBorrow : (0 : RegNum) ≠ 15 ∧ (14 : RegNum) ≠ 15 := by decide

theorem witness_ShiftsReportTheLostBit : (0 : RegNum) ≠ 15 ∧ (14 : RegNum) ≠ 15 := by decide

theorem witness_RandomDrawsOneByte : (0x0F : Byte).getLsbD 4 = false ∧ (0x0F : Byte).getLsbD 8 = false := by decide

theorem witness_DecimalStoreWritesThreeDigits :
    (startAt 0xF033 0xFFD [] []).i.toNat + 2 ≤ 0xFFF ∧ 0xFFF < (startAt 0xF033 0xFFE [] []).i.toNat + 2 := by decide

theorem witness_BulkStoreCopiesRegisters :
    ((startAt 0xFF55 0xFF0 [] []).i.toNat + (15 : RegNum).val ≤ 0xFFF ∧ (15 : RegNum) ≤ 15 ∧ (0 : RegNum) ≤ 15) ∧
    (startAt 0xF055 0xFFF [] []).i.toNat + (0 : RegNum).val ≤ 0xFFF ∧
    0xFFF < (startAt 0xFF55 0xFF1 [] []).i.toNat + (15 : RegNum).val ∧
    0xFFF < (startAt 0xF155 0xFFF [] []).i.toNat + (1 : RegNum).val := by decide

theorem witness_BulkLoadCopiesMemory :
    ((startAt 0xFF65 0xFF0 [] []).i.toNat + (15 : RegNum).val ≤ 0xFFF ∧ (15 : RegNum) ≤ 15 ∧ (0 : RegNum) ≤ 15) ∧
    (startAt 0xF065 0xFFF [] []).i.toNat + (0 : RegNum).val ≤ 0xFFF ∧
    0xFFF < (startAt 0xFF65 0xFF1 [] []).i.toNat + (15 : RegNum).val ∧
    0xFFF < (startAt 0xF165 0xFFF [] []).i.toNat + (1 : RegNum).val := by decide

/-- T118, T119, T120. -/
theorem witness_DrawXorsTheSprite :
    (startAt 0xD010 0xFFF [] []).i.toNat + (0 : BitVec 4).toNat ≤ 4096 ∧
    (startAt 0xD013 0xFFD [] []).i.toNat + (3 : BitVec 4).toNat ≤ 4096 ∧
    4096 < (startAt 0xD013 0xFFE [] []).i.toNat + (3 : BitVec 4).toNat := by decide

theorem witness_KeyWaitTakesTheLowestKey :
    (let s : State := { State.reset with key := 0x0084 }
     s.key.getLsbD (2 : Fin 16).val = true ∧ ∀ j : Fin 16, j < 2 → s.key.getLsbD j.val = false) ∧
    (let s : State := { State.reset with key := 0x8000 }
     s.key.getLsbD (15 : Fin 16).val = true ∧ ∀ j : Fin 16, j < 15 → s.key.getLsbD j.val = false) ∧
    ∀ k : Fin 16, State.reset.key.getLsbD k.val = false := by decide

end Sys2Proof.Tests
end

/-! No operation, no instruction and no transaction writes the configuration (`00_scope.md` R6, `10_state.md`
R26): one lemma for each shared operation, then the instructions, the two transactions that execute one, all eight. -/

namespace Sys2Proof.Machine

/-! ## The shared operations -/

@[simp] theorem State.resetWith_params (p : Config.Parameters) : (State.resetWith p).params = p := rfl

@[simp] theorem State.draw_params (s : State) : s.draw.2.params = s.params := rfl

@[simp] theorem State.drawn_params (s : State) (col row : Byte) (bs : List Byte) :
    (s.drawn col row bs).params = s.params := rfl

@[simp] theorem State.setRegsFrom_params (s : State) (k : Nat) (bs : List Byte) :
    (s.setRegsFrom k bs).params = s.params := by
  rw [State.setRegsFrom_eq]

theorem State.push_params {s t : State} {a : Addr} (h : s.push a = .ok t) : t.params = s.params := by
  unfold State.push at h
  split at h
  · cases h
    rfl
  · cases h

theorem State.pop_params {s : State} {r : Addr × State} (h : s.pop = .ok r) : r.2.params = s.params := by
  unfold State.pop at h
  split at h
  · cases h
    rfl
  · cases h

theorem State.writeAtI_params {s t : State} {bs : List Byte} (h : s.writeAtI bs = .ok t) : t.params = s.params := by
  rw [State.writeAtI_eq] at h
  split at h
  · cases h
  · cases h
    simp

@[simp] theorem State.loadProgram_params (s : State) (bs : List Byte) : (s.loadProgram bs).params = s.params := by
  rcases Nat.lt_or_ge 3584 bs.length with hlong | hfit
  · rw [State.loadProgram_of_too_long s hlong]
    split
    · rfl
    · simp
  · simp [State.loadProgram_of_fits s hfit]

/-- An instruction that can fault keeps the configuration when what it does after its check keeps it: the fault itself
sets the latch alone (`60_exceptions.md` R165). -/
theorem State.complete_map_params {α : Type} {s t : State} {r : Except FaultRecord α} {f : α → State}
    (h : s.complete (r.map f) = .next t) (hf : ∀ a, r = .ok a → (f a).params = s.params) : t.params = s.params := by
  cases r with
  | ok a =>
    cases h
    exact hf a rfl
  | error e =>
    cases h
    simp

/-! ## Instructions -/

/-- Executing an instruction keeps the configuration: six instructions can fault, Fx0A waits for a key, and the others
answer one updated state. -/
theorem exec_params {i : Instr} {s t : State} (h : exec i s = .next t) : t.params = s.params := by
  cases i with
  | ret => exact State.complete_map_params h fun r hpop => by simp [State.pop_params hpop]
  | callAddr addr => exact State.complete_map_params h fun u hpush => by simp [State.push_params hpush]
  | drwVxVyN x y n => exact State.complete_map_params h fun bs _ => by simp
  | ldBVx x => exact State.complete_map_params h fun u hwrite => by simp [State.writeAtI_params hwrite]
  | ldMemVx x => exact State.complete_map_params h fun u hwrite => by simp [State.writeAtI_params hwrite]
  | ldVxMem x => exact State.complete_map_params h fun bs _ => by simp
  | ldVxK x =>
    simp only [exec, execLdVxK] at h
    split at h
    · cases h
      simp
    · cases h
      rfl
  | _ =>
    cases h
    simp

/-! ## Transactions -/

theorem step_params {s t : State} (h : step s = .next t) : t.params = s.params := by
  obtain ⟨_, hhalted⟩ | ⟨_, i, _, hexec⟩ | ⟨_, e, _, hraise⟩ := step_cases s
  · cases hhalted.symm.trans h
    rfl
  · exact exec_params (hexec.symm.trans h)
  · cases hraise.symm.trans h
    simp

theorem execute_params {w : Word} {s t : State} (h : execute w s = .next t) : t.params = s.params := by
  obtain ⟨_, hhalted⟩ | ⟨_, i, _, hexec⟩ | ⟨_, _, hraise⟩ := execute_cases w s
  · cases hhalted.symm.trans h
    rfl
  · exact exec_params (hexec.symm.trans h)
  · cases hraise.symm.trans h
    simp

/-- Every transaction keeps the configuration, Reset included, which starts again under the same one. -/
theorem perform_params {tr : Transaction} {s t : State} (h : perform tr s = .next t) : t.params = s.params := by
  cases tr with
  | step => exact step_params h
  | execute w => exact execute_params h
  | _ =>
    cases h
    simp

/-- Settles O19: a transaction keeps the configuration by `perform_params`, and the rest reads off the reset state. -/
theorem parametersNeverChange : Obligations.ParametersNeverChange := by
  unfold Obligations.ParametersNeverChange
  exact ⟨fun _ _ _ => perform_params, rfl, rfl, State.resetWith_params⟩

end Sys2Proof.Machine

/-! The frame of each update of the state (`10_state.md`, `20_memory.md`, `60_exceptions.md`, their access tables):
which places it may change. Frames of updates made one after the other append. -/

namespace Sys2Proof.Machine

/-! ## Frames in general -/

theorem Place.same_refl (s : State) (p : Place) : p.same s s := by
  cases p <;> rfl

theorem Place.same_trans {s t u : State} {p : Place} (hst : p.same s t) (htu : p.same t u) : p.same s u := by
  cases p <;> exact Eq.trans htu hst

theorem onlyChanges_refl (s : State) (w : List Place) : onlyChanges s s w :=
  fun p _ => p.same_refl s

theorem onlyChanges.mono {s t : State} {w w' : List Place} (h : onlyChanges s t w) (hw : w ⊆ w') :
    onlyChanges s t w' :=
  fun p hp => h p fun hmem => hp (hw hmem)

/-- The second update's places stand first, as the access tables list them: `pc`, written last, heads each row. -/
theorem onlyChanges.append {s t u : State} {w w' : List Place} (hst : onlyChanges s t w)
    (htu : onlyChanges t u w') : onlyChanges s u (w' ++ w) := by
  intro p hp
  rw [List.mem_append, not_or] at hp
  obtain ⟨hw', hw⟩ := hp
  exact Place.same_trans (hst p hw) (htu p hw')

/-! ## One field -/

theorem State.onlyChanges_setReg (s : State) (x : RegNum) (b : Byte) : onlyChanges s (s.setReg x b) [.reg x] := by
  intro p hp
  cases p with
  | reg y => exact s.reg_setReg_of_ne (fun hyx => hp (by simp [hyx])) b
  | _ => rfl

theorem State.onlyChanges_setI (s : State) (a : Addr) : onlyChanges s (s.setI a) [.i] := by
  intro p hp
  cases p with
  | i => simp at hp
  | _ => rfl

theorem State.onlyChanges_setPc (s : State) (a : Addr) : onlyChanges s (s.setPc a) [.pc] := by
  intro p hp
  cases p with
  | pc => simp at hp
  | _ => rfl

theorem State.onlyChanges_advance (s : State) : onlyChanges s s.advance [.pc] :=
  s.onlyChanges_setPc s.nextPc

theorem State.onlyChanges_skipIf (s : State) (c : Bool) : onlyChanges s (s.skipIf c) [.pc] := by
  cases c with
  | false => exact s.onlyChanges_advance
  | true => exact s.onlyChanges_setPc _

theorem State.onlyChanges_setDt (s : State) (b : Byte) : onlyChanges s (s.setDt b) [.dt] := by
  intro p hp
  cases p with
  | dt => simp at hp
  | _ => rfl

theorem State.onlyChanges_setSt (s : State) (b : Byte) : onlyChanges s (s.setSt b) [.st] := by
  intro p hp
  cases p with
  | st => simp at hp
  | _ => rfl

theorem State.onlyChanges_draw (s : State) : onlyChanges s s.draw.2 [.rng] := by
  intro p hp
  cases p with
  | rng => simp at hp
  | _ => rfl

theorem State.onlyChanges_raise (s : State) (e : FaultRecord) : onlyChanges s (s.raise e) [.err] := by
  intro p hp
  cases p with
  | err => simp at hp
  | _ => rfl

theorem State.onlyChanges_setFlag (s : State) (c : Bool) : onlyChanges s (s.setFlag c) [.reg 15] :=
  s.onlyChanges_setReg vf (flagByte c)

theorem State.onlyChanges_setResultFlag (s : State) (x : RegNum) (b : Byte) (c : Bool) :
    onlyChanges s (s.setResultFlag x b c) [.reg x, .reg 15] :=
  ((s.onlyChanges_setReg x b).append ((s.setReg x b).onlyChanges_setFlag c)).mono (by simp)

/-! ## The stack -/

theorem State.onlyChanges_pushed (s : State) (k : Fin 16) (a : Addr) (sp' : Fin 17) :
    onlyChanges s { s with stack := s.stack.set k.val a, sp := sp' } [.sp, .slot k] := by
  intro p hp
  cases p with
  | sp => simp at hp
  | slot j =>
    have hkj : k.val ≠ j.val := fun e => hp (by simp [Fin.ext e])
    exact Vector.getElem_set_ne k.isLt j.isLt hkj
  | _ => rfl

theorem State.onlyChanges_popped (s : State) (sp' : Fin 17) : onlyChanges s { s with sp := sp' } [.sp] := by
  intro p hp
  cases p with
  | sp => simp at hp
  | _ => rfl

/-! ## Several bytes, registers or rows -/

/-- A store that stays inside the address space writes its range alone. -/
theorem State.onlyChanges_store (s : State) (a : Addr) (bs : List Byte) (hfit : a.toNat + bs.length ≤ 4096) :
    onlyChanges s (s.store a bs) (bytesAt a bs.length) := by
  intro p hp
  cases p with
  | byte k =>
    refine s.byte_store_of_outside a k bs hfit ?_
    by_contra hin
    refine hp (mem_bytesAt.2 ⟨k.toNat - a.toNat, by omega, BitVec.eq_of_toNat_eq ?_⟩)
    have := k.isLt
    simp only [BitVec.toNat_add, BitVec.toNat_ofNat]
    omega
  | _ => rfl

theorem State.onlyChanges_writeAtI {s t : State} {bs : List Byte} (h : s.writeAtI bs = .ok t) :
    onlyChanges s t (bytesAt s.i bs.length) := by
  rw [State.writeAtI_eq] at h
  split at h
  next => cases h
  next hfit =>
    cases h
    exact s.onlyChanges_store s.i bs (Nat.le_of_not_lt hfit)

theorem State.onlyChanges_setRegsFrom_zero (s : State) (x : RegNum) {bs : List Byte} (hlen : bs.length = x.val + 1) :
    onlyChanges s (s.setRegsFrom 0 bs) (regsTo x) := by
  intro p hp
  cases p with
  | reg y =>
    have hxy : x.val < y.val := Nat.lt_of_not_le fun hle => hp (mem_regsTo.2 hle)
    have hnone : bs[y.val]? = none := List.getElem?_eq_none (by omega)
    simp [Place.same, State.reg_setRegsFrom, hnone]
  | _ =>
    rw [State.setRegsFrom_eq]
    rfl

/-- The rows a sprite falls on, counted from its row coordinate as the register holds it. -/
theorem State.onlyChanges_drawn (s : State) (col row : Byte) {bs : List Byte} (hlen : bs.length ≤ 32) :
    onlyChanges s (s.drawn col row bs) (.reg 15 :: rowsAt row.toNat bs.length) := by
  rw [State.drawn_eq]
  refine onlyChanges.append ?_ (State.onlyChanges_setFlag _ _)
  intro p hp
  cases p with
  | row r =>
    have hout : bs[(r.val + 32 - row.toNat % 32 % 32) % 32]? = none := by
      rw [List.getElem?_eq_none_iff]
      by_contra hin
      refine hp (mem_rowsAt.2 ⟨_, Nat.lt_of_not_le hin, Fin.ext ?_⟩)
      have := r.isLt
      show (row.toNat + (r.val + 32 - row.toNat % 32 % 32) % 32) % 32 = r.val
      omega
    have hrow := drawRows_row (col.toNat % 64) bs (row.toNat % 32) s.fb false hlen r
    rw [hout, Option.elim_none] at hrow
    exact hrow.trans BitVec.xor_zero
  | _ => rfl

theorem State.onlyChanges_fb (s : State) (fb' : Vector RowBits 32) :
    onlyChanges s { s with fb := fb' } (rowsAt 0 32) := by
  intro p hp
  cases p with
  | row r => exact absurd (mem_rowsAt.2 ⟨r.val, r.isLt, by simp⟩) hp
  | _ => rfl

end Sys2Proof.Machine

/-! What the instructions that can fault answer: the cases of the stack, and the frame of a checked access. -/

namespace Sys2Proof.Machine

theorem State.sp_eq_zero_or_succ (s : State) : s.sp.val = 0 ∨ ∃ k : Fin 16, s.sp.val = k.val + 1 := by
  have := s.sp.isLt
  rcases Nat.eq_zero_or_pos s.sp.val with hzero | hpos
  · exact Or.inl hzero
  · exact Or.inr ⟨⟨s.sp.val - 1, by omega⟩, by simp only; omega⟩

theorem State.sp_eq_full_or_slot (s : State) : s.sp.val = 16 ∨ ∃ k : Fin 16, s.sp.val = k.val := by
  rcases Nat.lt_or_ge s.sp.val 16 with hlt | hge
  · exact Or.inr ⟨⟨s.sp.val, hlt⟩, rfl⟩
  · exact Or.inl (by omega)

theorem State.push_of_slot {s : State} {k : Fin 16} (h : s.sp.val = k.val) (a : Addr) :
    s.push a = .ok { s with stack := s.stack.set k.val a, sp := k.succ } := by
  have hsp : (⟨s.sp.val + 1, by omega⟩ : Fin 17) = k.succ := Fin.ext (by simp [h])
  rw [State.push_of_lt (by omega), hsp]
  simp only [h]

theorem exec_ret_of_empty {s : State} (h : s.sp.val = 0) : exec .ret s = .next (s.raise .stackUnderflow) := by
  show s.complete (s.pop.map _) = _
  rw [State.pop_of_empty h]
  rfl

theorem exec_ret_of_succ {s : State} {k : Fin 16} (h : s.sp.val = k.val + 1) :
    exec .ret s = .next (State.setPc { s with sp := k.castSucc } s.stack[k.val]) := by
  show s.complete (s.pop.map _) = _
  rw [State.pop_of_pos h]
  rfl

theorem exec_callAddr_of_full {s : State} (h : s.sp.val = 16) (addr : Addr) :
    exec (.callAddr addr) s = .next (s.raise .stackOverflow) := by
  show s.complete ((s.push s.nextPc).map _) = _
  rw [State.push_of_full h]
  rfl

theorem exec_callAddr_of_slot {s : State} {k : Fin 16} (h : s.sp.val = k.val) (addr : Addr) :
    exec (.callAddr addr) s =
      .next (State.setPc { s with stack := s.stack.set k.val s.nextPc, sp := k.succ } addr) := by
  show s.complete ((s.push s.nextPc).map _) = _
  rw [State.push_of_slot h]
  rfl

/-- An instruction that can fault keeps a frame with the latch in it when what it does after its check keeps it. -/
theorem State.onlyChanges_complete_map {α : Type} {s t : State} {r : Except FaultRecord α} {f : α → State}
    {w : List Place} (h : s.complete (r.map f) = .next t) (herr : .err ∈ w)
    (hf : ∀ a, r = .ok a → onlyChanges s (f a) w) : onlyChanges s t w := by
  cases r with
  | ok a =>
    cases h
    exact hf a rfl
  | error e =>
    cases h
    exact (s.onlyChanges_raise e).mono (by simpa using herr)

theorem State.readAtI_length {s : State} {n : Nat} {bs : List Byte} (h : s.readAtI n = .ok bs) : bs.length = n := by
  rw [State.readAtI_eq] at h
  split at h
  · cases h
  · cases h
    simp

end Sys2Proof.Machine

/-! Each instruction keeps to its row of the access tables. -/

namespace Sys2Proof.Machine

theorem ret_onlyChanges {s t : State} (h : exec .ret s = .next t) : onlyChanges s t [.pc, .sp, .err] := by
  rcases s.sp_eq_zero_or_succ with hzero | ⟨k, hk⟩
  · cases (exec_ret_of_empty hzero).symm.trans h
    exact (s.onlyChanges_raise _).mono (by simp)
  · cases (exec_ret_of_succ hk).symm.trans h
    exact ((s.onlyChanges_popped _).append (State.onlyChanges_setPc _ _)).mono (by simp)

theorem callAddr_onlyChanges {s t : State} {addr : Addr} (h : exec (.callAddr addr) s = .next t) :
    onlyChanges s t (.pc :: .sp :: .err :: slotAt s.sp) := by
  rcases s.sp_eq_full_or_slot with hfull | ⟨k, hk⟩
  · cases (exec_callAddr_of_full hfull addr).symm.trans h
    exact (s.onlyChanges_raise _).mono (by simp)
  · cases (exec_callAddr_of_slot hk addr).symm.trans h
    have hslot : slotAt s.sp = [.slot k] := by simp [slotAt, hk]
    rw [hslot]
    exact ((s.onlyChanges_pushed k _ _).append (State.onlyChanges_setPc _ _)).mono (by simp)

theorem drwVxVyN_onlyChanges {s t : State} {x y : RegNum} {n : BitVec 4} (h : exec (.drwVxVyN x y n) s = .next t) :
    onlyChanges s t (.pc :: .reg 15 :: .err :: rowsAt (s.reg y).toNat n.toNat) := by
  refine State.onlyChanges_complete_map h (by simp) fun bs hread => ?_
  have hlen := State.readAtI_length hread
  rw [← hlen]
  exact ((s.onlyChanges_drawn _ _ (by omega)).append (State.onlyChanges_advance _)).mono
    (List.cons_subset_cons _ (List.cons_subset_cons _ (List.subset_cons_self _ _)))

/-- The two stores, Fx33 and Fx55. -/
theorem store_onlyChanges {s t : State} {bs : List Byte}
    (h : s.complete ((s.writeAtI bs).map State.advance) = .next t) :
    onlyChanges s t (.pc :: .err :: bytesAt s.i bs.length) :=
  State.onlyChanges_complete_map h (by simp) fun u hwrite =>
    ((State.onlyChanges_writeAtI hwrite).append u.onlyChanges_advance).mono
      (List.cons_subset_cons _ (List.subset_cons_self _ _))

theorem ldVxMem_onlyChanges {s t : State} {x : RegNum} (h : exec (.ldVxMem x) s = .next t) :
    onlyChanges s t (.pc :: .err :: regsTo x) :=
  State.onlyChanges_complete_map h (by simp) fun _ hread =>
    ((s.onlyChanges_setRegsFrom_zero x (State.readAtI_length hread)).append (State.onlyChanges_advance _)).mono
      (List.cons_subset_cons _ (List.subset_cons_self _ _))

theorem ldVxK_onlyChanges {s t : State} {x : RegNum} (h : exec (.ldVxK x) s = .next t) :
    onlyChanges s t [.pc, .reg x] := by
  simp only [exec, execLdVxK] at h
  split at h
  · cases h
    exact (s.onlyChanges_setReg x _).append (State.onlyChanges_advance _)
  · cases h
    exact onlyChanges_refl s _

theorem exec_onlyChanges {i : Instr} {s t : State} (h : exec i s = .next t) : onlyChanges s t (writesOf i s) := by
  cases i with
  | cls =>
    cases h
    exact (s.onlyChanges_fb _).append (State.onlyChanges_advance _)
  | ret => exact ret_onlyChanges h
  | jpAddr _ | jpV0Addr _ =>
    cases h
    exact s.onlyChanges_setPc _
  | callAddr addr => exact callAddr_onlyChanges h
  | seVxKk _ _ | sneVxKk _ _ | seVxVy _ _ | sneVxVy _ _ | skpVx _ | sknpVx _ =>
    cases h
    exact s.onlyChanges_skipIf _
  | ldVxKk x _ | addVxKk x _ | ldVxVy x _ | orVxVy x _ | andVxVy x _ | xorVxVy x _ | ldVxDt x =>
    cases h
    exact (s.onlyChanges_setReg x _).append (State.onlyChanges_advance _)
  | addVxVy x _ | subVxVy x _ | subnVxVy x _ | shrVx x _ | shlVx x _ =>
    cases h
    exact (s.onlyChanges_setResultFlag x _ _).append (State.onlyChanges_advance _)
  | rndVxKk x kk =>
    cases h
    exact (s.onlyChanges_draw.append (State.onlyChanges_setReg _ x _)).append (State.onlyChanges_advance _)
  | ldIAddr _ | addIVx _ | ldFVx _ =>
    cases h
    exact (s.onlyChanges_setI _).append (State.onlyChanges_advance _)
  | ldDtVx _ =>
    cases h
    exact (s.onlyChanges_setDt _).append (State.onlyChanges_advance _)
  | ldStVx _ =>
    cases h
    exact (s.onlyChanges_setSt _).append (State.onlyChanges_advance _)
  | drwVxVyN x y n => exact drwVxVyN_onlyChanges h
  | ldVxK x => exact ldVxK_onlyChanges h
  | ldBVx x => exact store_onlyChanges h
  | ldMemVx x => simpa only [writesOf, State.regsUpTo_length] using store_onlyChanges h
  | ldVxMem x => exact ldVxMem_onlyChanges h

/-- Settles O27: the frames of the updates an instruction makes append to its row of the tables. -/
theorem instructionsWriteOnlyTheirPlaces : Obligations.InstructionsWriteOnlyTheirPlaces :=
  fun _ _ _ => exec_onlyChanges

end Sys2Proof.Machine

/-! Which instructions can change the flag register, and what the six of R11 leave in it (`10_state.md` R11 to R13). -/

namespace Sys2Proof.Machine

/-- The access tables list `VF` for the six and for a named destination only (R13). -/
theorem vf_not_mem_writesOf {i : Instr} (s : State) (hflag : writesFlag i = false)
    (hdest : namesFlagAsDestination i = false) : Place.reg 15 ∉ writesOf i s := by
  cases i with
  | addVxVy _ _ | subVxVy _ _ | subnVxVy _ _ | shrVx _ _ | shlVx _ _ | drwVxVyN _ _ _ => cases hflag
  | ldVxKk x _ | addVxKk x _ | ldVxVy x _ | orVxVy x _ | andVxVy x _ | xorVxVy x _ | rndVxKk x _ | ldVxDt x
  | ldVxK x =>
    have hx : x ≠ 15 := ne_of_beq_false hdest
    simp [writesOf, hx.symm]
  | ldVxMem x =>
    have hx : x ≠ 15 := ne_of_beq_false hdest
    have hlt : ¬ (15 : RegNum) ≤ x := fun hle => hx (Fin.last_le_iff.1 hle)
    simp [writesOf, mem_regsTo, hlt]
  | cls => simp [writesOf, rowsAt]
  | callAddr _ =>
    simp only [writesOf, slotAt]
    split <;> simp
  | ldBVx _ | ldMemVx _ => simp [writesOf, bytesAt]
  | _ => simp [writesOf]

theorem flagByte_eq_zero_or_one (c : Bool) : flagByte c = 0 ∨ flagByte c = 1 := by
  cases c with
  | false => exact Or.inl rfl
  | true => exact Or.inr rfl

theorem readAtI_of_ownFault_none {s : State} {x y : RegNum} {n : BitVec 4}
    (h : ownFault (.drwVxVyN x y n) s = none) :
    s.readAtI n.toNat = .ok (s.mem.bytes s.params.font s.i n.toNat) := by
  have hfit : ¬ (0 < n.toNat ∧ s.i.toNat + n.toNat - 1 > 0xFFF) := by
    intro hleaves
    simp [ownFault, hleaves] at h
  have hi := s.i.isLt
  rw [State.readAtI_eq, if_neg (by omega)]

/-- Each of the six, when it takes no fault, ends with the write of a flag. -/
theorem exec_vf_eq_flagByte {i : Instr} {s t : State} (h : exec i s = .next t) (hflag : writesFlag i = true)
    (hfault : ownFault i s = none) : ∃ c, t.reg 15 = flagByte c := by
  cases i with
  | addVxVy x _ | subVxVy x _ | subnVxVy x _ | shrVx x _ | shlVx x _ =>
    cases h
    exact ⟨_, s.reg_setResultFlag_vf x _ _⟩
  | drwVxVyN x y n =>
    simp only [exec, execDrwVxVyN, readAtI_of_ownFault_none hfault] at h
    cases h
    exact ⟨_, s.reg_drawn_vf _ _ _⟩
  | _ => cases hflag

/-- Settles O28: outside the six by the frame of the access tables, in the six by the flag they write last. -/
theorem onlyTheSixWriteTheFlag : Obligations.OnlyTheSixWriteTheFlag := by
  intro i s t h
  refine ⟨fun hflag hdest => exec_onlyChanges h _ (vf_not_mem_writesOf s hflag hdest), fun hflag hfault => ?_⟩
  obtain ⟨c, hc⟩ := exec_vf_eq_flagByte h hflag hfault
  exact hc ▸ flagByte_eq_zero_or_one c

end Sys2Proof.Machine

/-! State that an instruction may hold without reading it: the sound timer (`10_state.md` R17) and the stack slots not
in use (R28). Replacing either commutes with every instruction that has no operand there. -/

namespace Sys2Proof.Machine

/-- A state with its sound timer and its call stack each replaced by a function of the old contents. -/
def State.mapStStack (s : State) (f : Byte → Byte) (g : Vector Addr 16 → Vector Addr 16) : State :=
  { s with st := f s.st, stack := g s.stack }

/-- The three instructions that write the sound timer or use the call stack (R17, R18). -/
def usesStOrStack : Instr → Bool
  | .ret | .callAddr _ | .ldStVx _ => true
  | _ => false

section
variable (f : Byte → Byte) (g : Vector Addr 16 → Vector Addr 16)

theorem State.skipIf_mapStStack (s : State) (c : Bool) :
    (s.mapStStack f g).skipIf c = (s.skipIf c).mapStStack f g := by
  cases c <;> rfl

theorem State.setRegsFrom_mapStStack (s : State) (k : Nat) (bs : List Byte) :
    (s.mapStStack f g).setRegsFrom k bs = (s.setRegsFrom k bs).mapStStack f g := by
  induction bs generalizing s k with
  | nil => rfl
  | cons b bs ih =>
    unfold State.setRegsFrom
    split
    · exact ih (s.setReg _ b) (k + 1)
    · rfl

theorem State.complete_map_mapStStack {α : Type} {s t : State} {r : Except FaultRecord α} {k k' : α → State}
    (hk : ∀ a, k' a = (k a).mapStStack f g) (h : s.complete (r.map k) = .next t) :
    (s.mapStStack f g).complete (r.map k') = .next (t.mapStStack f g) := by
  cases r with
  | ok a =>
    cases h
    exact congrArg Host.Outcome.next (hk a)
  | error e =>
    cases h
    rfl

/-- A store at the index register, as a map of the memory it writes. -/
theorem State.writeAtI_map (s : State) (bs : List Byte) (k : State → State) :
    (s.writeAtI bs).map k = (memWrite s.mem s.params.font s.i bs).map fun m => k { s with mem := m } := by
  unfold State.writeAtI
  cases memWrite s.mem s.params.font s.i bs <;> rfl

/-- The two stores, Fx33 and Fx55. -/
theorem store_mapStStack {s t : State} {bs : List Byte}
    (h : s.complete ((s.writeAtI bs).map State.advance) = .next t) :
    (s.mapStStack f g).complete (((s.mapStStack f g).writeAtI bs).map State.advance) =
      .next (t.mapStStack f g) := by
  rw [State.writeAtI_map] at h ⊢
  exact State.complete_map_mapStStack f g (fun _ => rfl) h

/-- An instruction that uses neither carries any replacement of the two through. -/
theorem exec_mapStStack {i : Instr} {s t : State} (hi : usesStOrStack i = false) (h : exec i s = .next t) :
    exec i (s.mapStStack f g) = .next (t.mapStStack f g) := by
  cases i with
  | ret | callAddr _ | ldStVx _ => cases hi
  | seVxKk _ _ | sneVxKk _ _ | seVxVy _ _ | sneVxVy _ _ | skpVx _ | sknpVx _ =>
    cases h
    exact congrArg Host.Outcome.next (s.skipIf_mapStStack f g _)
  | drwVxVyN x y n => exact State.complete_map_mapStStack f g (fun _ => rfl) h
  | ldBVx x => exact store_mapStStack f g h
  | ldMemVx x => exact store_mapStStack f g h
  | ldVxMem x =>
    refine State.complete_map_mapStStack f g (fun bs => ?_) h
    rw [State.setRegsFrom_mapStStack]
    rfl
  | ldVxK x =>
    have hkey : (s.mapStStack f g).lowestKey = s.lowestKey := rfl
    simp only [exec, execLdVxK, hkey] at h ⊢
    cases hlow : s.lowestKey with
    | some k =>
      rw [hlow] at h
      cases h
      rfl
    | none =>
      rw [hlow] at h
      cases h
      rfl
  | _ =>
    cases h
    rfl

/-- The halt check, the fetch and the decoder see neither, so both steps end in the same stage. -/
theorem step_mapStStack_cases (s : State) :
    (step s = .next s ∧ step (s.mapStStack f g) = .next (s.mapStStack f g)) ∨
    (∃ e, step s = .next (s.raise e) ∧ step (s.mapStStack f g) = .next ((s.mapStStack f g).raise e)) ∨
    ∃ i, step s = exec i s ∧ step (s.mapStStack f g) = exec i (s.mapStStack f g) := by
  have hhalted : (s.mapStStack f g).halted = s.halted := rfl
  have hfetch : (s.mapStStack f g).fetchInstr = s.fetchInstr := rfl
  simp only [step, hhalted, hfetch]
  cases s.halted with
  | true => exact Or.inl ⟨rfl, rfl⟩
  | false =>
    cases s.fetchInstr with
    | error e => exact Or.inr (Or.inl ⟨e, rfl, rfl⟩)
    | ok i => exact Or.inr (Or.inr ⟨i, rfl, rfl⟩)

end

/-! ## The sound timer -/

/-- Replacing the sound timer carries through every instruction, except that Fx18 writes over it. -/
theorem exec_with_st {i : Instr} {s t : State} (b : Byte) (h : exec i s = .next t) :
    ∃ b', exec i { s with st := b } = .next { t with st := b' } := by
  cases i with
  | ldStVx x =>
    cases h
    exact ⟨s.reg x, rfl⟩
  | ret =>
    rcases s.sp_eq_zero_or_succ with hzero | ⟨k, hk⟩
    · cases (exec_ret_of_empty hzero).symm.trans h
      exact ⟨b, exec_ret_of_empty (s := { s with st := b }) hzero⟩
    · cases (exec_ret_of_succ hk).symm.trans h
      exact ⟨b, exec_ret_of_succ (s := { s with st := b }) hk⟩
  | callAddr addr =>
    rcases s.sp_eq_full_or_slot with hfull | ⟨k, hk⟩
    · cases (exec_callAddr_of_full hfull addr).symm.trans h
      exact ⟨b, exec_callAddr_of_full (s := { s with st := b }) hfull addr⟩
    · cases (exec_callAddr_of_slot hk addr).symm.trans h
      exact ⟨b, exec_callAddr_of_slot (s := { s with st := b }) hk addr⟩
  | _ => exact ⟨b, exec_mapStStack (fun _ => b) id rfl h⟩

/-- Settles O29: no stage of a step reads the sound timer. -/
theorem soundTimerIsNeverRead : Obligations.SoundTimerIsNeverRead := by
  intro s t b h
  obtain ⟨hs, hs'⟩ | ⟨e, hs, hs'⟩ | ⟨i, hs, hs'⟩ := step_mapStStack_cases (fun _ => b) id s
  · cases hs.symm.trans h
    exact ⟨b, hs'⟩
  · cases hs.symm.trans h
    exact ⟨b, hs'⟩
  · obtain ⟨b', hexec⟩ := exec_with_st b (hs.symm.trans h)
    exact ⟨b', hs'.trans hexec⟩

/-! ## The stack slots not in use -/

/-- Two stacks hold the same in the first `n` slots. -/
def agreeBelow (n : Nat) (stack' stack : Vector Addr 16) : Prop :=
  ∀ k : Fin 16, k.val < n → stack'[k.val] = stack[k.val]

/-- Both stacks written at the slot above those they agree in agree in that slot too. -/
theorem agreeBelow.set {stack' stack : Vector Addr 16} {n : Fin 16} (h : agreeBelow n.val stack' stack) (a : Addr) :
    agreeBelow (n.val + 1) (stack'.set n.val a) (stack.set n.val a) := by
  intro k hk
  rcases Nat.lt_succ_iff_lt_or_eq.1 hk with hlt | heq
  · rw [Vector.getElem_set_ne _ _ (Nat.ne_of_gt hlt), Vector.getElem_set_ne _ _ (Nat.ne_of_gt hlt)]
    exact h k hlt
  · simp [heq]

theorem stack_not_mem_writesOf {i : Instr} (s : State) (hi : usesStOrStack i = false) :
    .sp ∉ writesOf i s ∧ ∀ k, .slot k ∉ writesOf i s := by
  cases i with
  | ret | callAddr _ | ldStVx _ => cases hi
  | cls | drwVxVyN _ _ _ => simp [writesOf, rowsAt]
  | ldBVx _ | ldMemVx _ => simp [writesOf, bytesAt]
  | ldVxMem _ => simp [writesOf, regsTo]
  | _ => simp [writesOf]

theorem exec_agreeBelow {i : Instr} {s t : State} {stack' : Vector Addr 16} (hi : usesStOrStack i = false)
    (h : exec i s = .next t) (hagree : agreeBelow s.sp.val stack' s.stack) :
    agreeBelow t.sp.val stack' t.stack := by
  obtain ⟨hsp, hslot⟩ := stack_not_mem_writesOf s hi
  have hkeep : t.sp = s.sp := exec_onlyChanges h .sp hsp
  intro k hk
  exact (hagree k (hkeep ▸ hk)).trans (exec_onlyChanges h (.slot k) (hslot k)).symm

/-- Slots at and above the stack pointer decide nothing: a return reads the slot below it, a call writes the slot at
it before any return can read that. -/
theorem exec_with_stack {i : Instr} {s t : State} {stack' : Vector Addr 16}
    (hagree : agreeBelow s.sp.val stack' s.stack) (h : exec i s = .next t) :
    ∃ u, exec i { s with stack := stack' } = .next { t with stack := u } ∧ agreeBelow t.sp.val u t.stack := by
  cases i with
  | ldStVx x =>
    cases h
    exact ⟨stack', rfl, hagree⟩
  | ret =>
    rcases s.sp_eq_zero_or_succ with hzero | ⟨k, hk⟩
    · cases (exec_ret_of_empty hzero).symm.trans h
      exact ⟨stack', exec_ret_of_empty (s := { s with stack := stack' }) hzero, hagree⟩
    · cases (exec_ret_of_succ hk).symm.trans h
      have hpop := exec_ret_of_succ (s := { s with stack := stack' }) hk
      rw [hagree k (by omega)] at hpop
      exact ⟨stack', hpop, fun j hj => hagree j (by rw [hk]; exact Nat.lt_succ_of_lt hj)⟩
  | callAddr addr =>
    rcases s.sp_eq_full_or_slot with hfull | ⟨k, hk⟩
    · cases (exec_callAddr_of_full hfull addr).symm.trans h
      exact ⟨stack', exec_callAddr_of_full (s := { s with stack := stack' }) hfull addr, hagree⟩
    · cases (exec_callAddr_of_slot hk addr).symm.trans h
      rw [hk] at hagree
      exact ⟨stack'.set k.val s.nextPc, exec_callAddr_of_slot (s := { s with stack := stack' }) hk addr,
        hagree.set s.nextPc⟩
  | _ => exact ⟨stack', exec_mapStStack id (fun _ => stack') rfl h, exec_agreeBelow rfl h hagree⟩

/-- Settles O30: a step keeps the agreement of two stacks below the stack pointer, by `exec_with_stack`. -/
theorem unusedSlotsAreNeverObserved : Obligations.UnusedSlotsAreNeverObserved := by
  intro s t stack' hagree h
  obtain ⟨hs, hs'⟩ | ⟨e, hs, hs'⟩ | ⟨i, hs, hs'⟩ := step_mapStStack_cases id (fun _ => stack') s
  · cases hs.symm.trans h
    exact ⟨stack', hs', hagree⟩
  · cases hs.symm.trans h
    exact ⟨stack', hs', hagree⟩
  · obtain ⟨u, hexec, hu⟩ := exec_with_stack hagree (hs.symm.trans h)
    exact ⟨u, hs'.trans hexec, hu⟩

end Sys2Proof.Machine

/-! The call stack, last in first out (`10_state.md` R18 to R20), and the memory at reset (R28). -/

namespace Sys2Proof.Machine

theorem popAll_succ_of_popAll {t u v : State} {n : Nat} {as : List Addr} {a : Addr} (h : popAll n t = .ok (as, u))
    (hpop : u.pop = .ok (a, v)) : popAll (n + 1) t = .ok (as ++ [a], v) := by
  induction n generalizing t as with
  | zero =>
    cases h
    simp [popAll, hpop, Except.bind, Except.map]
  | succ n ih =>
    unfold popAll at h ⊢
    cases ht : t.pop with
    | error e => simp [ht, Except.bind] at h
    | ok r =>
      cases hrest : popAll n r.2 with
      | error e => simp [ht, hrest, Except.bind, Except.map] at h
      | ok q =>
        simp only [ht, hrest, Except.bind, Except.map, Except.ok.injEq, Prod.mk.injEq] at h
        obtain ⟨rfl, hu⟩ := h
        have hq : popAll n r.2 = .ok (q.1, u) := by rw [hrest, ← hu]
        simp [Except.bind, Except.map, ih hq]

/-- The places that pushes of values that fit, and as many pops, give back: all but the slots not in use. -/
def keptByStack (s : State) (p : Place) : Prop :=
  ∀ k : Fin 16, p = .slot k → k.val < s.sp.val

theorem keptByStack_slot {s : State} {k : Fin 16} (h : k.val < s.sp.val) : keptByStack s (.slot k) := by
  rintro j hj
  cases hj
  exact h

/-- Pushed values come back in reverse order: the newest is popped first, and what is popped last is the value pushed
first, whose slot the pushes after it do not touch. -/
theorem popAll_pushAll (as : List Addr) {s : State} (hfit : s.sp.val + as.length ≤ 16) :
    ∃ t u, pushAll as s = .ok t ∧ t.sp.val = s.sp.val + as.length ∧ popAll as.length t = .ok (as.reverse, u) ∧
      u.sp = s.sp ∧ ∀ p, keptByStack s p → p.same s u := by
  induction as generalizing s with
  | nil => exact ⟨s, s, rfl, rfl, rfl, rfl, fun p _ => p.same_refl s⟩
  | cons a as ih =>
    rw [List.length_cons] at hfit
    obtain ⟨k, hk⟩ : ∃ k : Fin 16, s.sp.val = k.val := ⟨⟨s.sp.val, by omega⟩, rfl⟩
    have hpush := State.push_of_slot hk a
    have hpushed := s.onlyChanges_pushed k a k.succ
    have htop : ({ s with stack := s.stack.set k.val a, sp := k.succ } : State).stack[k.val] = a :=
      Vector.getElem_set_self k.isLt
    have hsucc : ({ s with stack := s.stack.set k.val a, sp := k.succ } : State).sp.val = s.sp.val + 1 := by
      simp [hk]
    generalize ({ s with stack := s.stack.set k.val a, sp := k.succ } : State) = s₁ at *
    obtain ⟨t, u, hpushAll, htsp, hpopAll, husp, hkept⟩ := ih (s := s₁) (by omega)
    have hpop := State.pop_of_pos (s := u) (k := k) (by rw [husp, hsucc, hk])
    have hslot : u.stack[k.val] = a := (hkept (.slot k) (keptByStack_slot (by omega))).trans htop
    have hvsp : k.castSucc = s.sp := Fin.ext hk.symm
    refine ⟨t, { u with sp := k.castSucc }, ?_, by rw [htsp, hsucc, List.length_cons]; omega, ?_, hvsp, ?_⟩
    · rw [pushAll, hpush]
      exact hpushAll
    · rw [List.length_cons, List.reverse_cons]
      exact popAll_succ_of_popAll hpopAll (hslot ▸ hpop)
    · intro p hp
      by_cases hpsp : p = .sp
      · subst hpsp
        exact hvsp
      · have hpslot : p ≠ .slot k := fun he => absurd (hp k he) (by omega)
        have hs₁ : p.same s s₁ := hpushed p (by simp [hpsp, hpslot])
        have hu : p.same s₁ u := hkept p fun j hj => Nat.lt_succ_of_lt (hp j hj) |>.trans_eq hsucc.symm
        have hv := u.onlyChanges_popped k.castSucc p (by simp [hpsp])
        exact Place.same_trans (Place.same_trans hs₁ hu) hv

/-- Settles O31: one push and one pop by their equations and frames, a row of them by `popAll_pushAll`. -/
theorem stackIsLastInFirstOut : Obligations.StackIsLastInFirstOut := by
  refine ⟨fun s a hfull => State.push_of_full hfull a, fun s a k hk => ?_, fun s hzero => State.pop_of_empty hzero,
    fun s k hk => ?_, fun s as hfit => popAll_pushAll as hfit⟩
  · exact ⟨_, State.push_of_slot hk a, Vector.getElem_set_self k.isLt, rfl, s.onlyChanges_pushed k a _⟩
  · exact ⟨_, State.pop_of_pos hk, rfl, s.onlyChanges_popped _⟩

/-- Settles O16: nothing is listed at reset, and an empty list of cells is canonical. -/
theorem resetMemoryIsCanonical : Obligations.ResetMemoryIsCanonical :=
  ⟨fun _ => rfl, rfl⟩

end Sys2Proof.Machine

/-! What a fetch, a data read and a data write see of the memory (`20_memory.md` R45 to R47, R54), and which operations
keep its canonical form. -/

namespace Sys2Proof.Machine

/-! ## Ranges and fetches -/

/-- The address `k` above another, as the spec writes it: the sum of two ordinary integers, on 12 bits. -/
theorem add_ofNat_eq_ofNat_add (a : Addr) (k : Nat) : a + BitVec.ofNat 12 k = BitVec.ofNat 12 (a.toNat + k) := by
  rw [BitVec.ofNat_add, BitVec.ofNat_toNat, BitVec.setWidth_eq]

/-- Settles O8: the one faulting address is 0xFFF, and two bytes put together are a number in base 256. -/
theorem fetchIsBigEndian : Obligations.FetchIsBigEndian := by
  intro m f a
  rw [fetch_eq]
  constructor
  · intro hin
    have hne : a ≠ 0xFFF := by
      rintro rfl
      exact absurd hin (by decide)
    have hnext : a + 1 = BitVec.ofNat 12 (a.toNat + 1) := add_ofNat_eq_ofNat_add a 1
    rw [if_neg hne, hnext]
    exact ⟨_, rfl, (append_toNat _ _).trans (by omega)⟩
  · intro hout
    have hlast : a = 0xFFF := BitVec.eq_of_toNat_eq (show a.toNat = 0xFFF by omega)
    rw [if_pos hlast]

/-- The check of R46 and R47 in the spec's form is that of `memRead_eq` and `memWrite_eq`. -/
theorem lt_add_iff_last_gt (a : Addr) (n : Nat) : 4096 < a.toNat + n ↔ 0 < n ∧ a.toNat + n - 1 > 0xFFF := by
  have := a.isLt
  omega

/-- Settles O25: element `k` of the range read, or of the range written, is the byte `k` above its start. -/
theorem dataRangesAreCheckedWhole : Obligations.DataRangesAreCheckedWhole := by
  intro m f a
  simp only [← lt_add_iff_last_gt, memRead_eq, memWrite_eq]
  refine ⟨fun n => ⟨fun hout => if_pos hout, fun hin => ?_⟩,
    fun bs => ⟨fun hout => if_pos hout, fun hin => ?_⟩⟩
  · refine ⟨_, if_neg hin, Memory.bytes_length m a n, fun k hk => ?_⟩
    rw [Memory.bytes_getElem?, if_pos hk, add_ofNat_eq_ofNat_add]
  · have hfit : a.toNat + bs.length ≤ 4096 := Nat.le_of_not_lt hin
    refine ⟨_, if_neg hin, fun k hk => ?_, fun b hb => Memory.read_writeBytes_of_outside m a b bs hfit hb⟩
    rw [← add_ofNat_eq_ofNat_add, Memory.read_writeBytes_inside m a bs hfit k hk, List.getElem?_eq_getElem hk]

/-! ## A store that the next fetch reads -/

theorem exec_ldMemVx_of_fits {x : RegNum} {s : State} (hfit : s.i.toNat + x.val ≤ 0xFFF) :
    exec (.ldMemVx x) s = .next (s.store s.i (s.regsUpTo x)).advance := by
  have hin : ¬ 4096 < s.i.toNat + (s.regsUpTo x).length := by
    rw [State.regsUpTo_length]
    omega
  show s.complete ((s.writeAtI (s.regsUpTo x)).map State.advance) = _
  rw [State.writeAtI_eq, if_neg hin]
  rfl

/-- Fx55 stores register `k` at the byte `k` above the index register. -/
theorem State.byte_store_regsUpTo (s : State) {x k : RegNum} (hk : k ≤ x) (hfit : s.i.toNat + x.val ≤ 0xFFF) :
    (s.store s.i (s.regsUpTo x)).byte (s.i + BitVec.ofNat 12 k.val) = s.reg k := by
  have hlt : k.val < (s.regsUpTo x).length := by
    rw [State.regsUpTo_length]
    exact Nat.lt_succ_of_le hk
  have hreg := s.regsUpTo_getElem? x k hk
  rw [List.getElem?_eq_getElem hlt, Option.some.injEq] at hreg
  rw [State.byte_store_inside s s.i _ (by rw [State.regsUpTo_length]; omega) k.val hlt, hreg]

/-- Settles O35: the fetch at the index register reads the two bytes the store has put there. -/
theorem storedBytesAreFetchedNext : Obligations.StoredBytesAreFetchedNext := by
  intro x s hx hi hfit
  have hne : s.i ≠ 0xFFF := by
    intro hlast
    have htoNat : s.i.toNat = 0xFFF := congrArg BitVec.toNat hlast
    omega
  have hpc : (s.store s.i (s.regsUpTo x)).advance.pc = s.i := hi.symm
  have hhi := s.byte_store_regsUpTo (k := 0) (Fin.zero_le x) hfit
  have hlo := s.byte_store_regsUpTo (k := 1) hx hfit
  refine ⟨_, exec_ldMemVx_of_fits hfit, hpc, ?_⟩
  rw [hpc, State.fetchAt_eq, if_neg hne, State.advance_byte, State.advance_byte, ← hhi, ← hlo]
  simp

/-! ## The memory after an instruction -/

@[simp] theorem State.draw_mem (s : State) : s.draw.2.mem = s.mem := rfl

@[simp] theorem State.drawn_mem (s : State) (col row : Byte) (bs : List Byte) :
    (s.drawn col row bs).mem = s.mem := rfl

@[simp] theorem State.setRegsFrom_mem (s : State) (k : Nat) (bs : List Byte) : (s.setRegsFrom k bs).mem = s.mem := by
  rw [State.setRegsFrom_eq]

theorem State.push_mem {s t : State} {a : Addr} (h : s.push a = .ok t) : t.mem = s.mem := by
  rcases s.sp_eq_full_or_slot with hfull | ⟨k, hk⟩
  · cases (State.push_of_full hfull a).symm.trans h
  · cases (State.push_of_slot hk a).symm.trans h
    rfl

theorem State.pop_mem {s : State} {r : Addr × State} (h : s.pop = .ok r) : r.2.mem = s.mem := by
  rcases s.sp_eq_zero_or_succ with hzero | ⟨k, hk⟩
  · cases (State.pop_of_empty hzero).symm.trans h
  · cases (State.pop_of_pos hk).symm.trans h
    rfl

theorem State.writeAtI_mem {s t : State} {bs : List Byte} (h : s.writeAtI bs = .ok t) :
    t.mem = s.mem.writeBytes s.params.font s.i bs := by
  rw [State.writeAtI_eq] at h
  split at h
  · cases h
  · cases h
    rfl

/-- The memory is as before, or as before with a list of bytes written at some address. -/
def memKeptOrStored (s t : State) : Prop :=
  t.mem = s.mem ∨ ∃ a bs, t.mem = s.mem.writeBytes s.params.font a bs

/-- An instruction that can fault: the fault keeps the memory, so what it does after its check decides. -/
theorem State.complete_map_memKeptOrStored {α : Type} {s t : State} {r : Except FaultRecord α} {g : α → State}
    (h : s.complete (r.map g) = .next t) (hg : ∀ a, r = .ok a → memKeptOrStored s (g a)) : memKeptOrStored s t := by
  cases r with
  | ok a =>
    cases h
    exact hg a rfl
  | error e =>
    cases h
    exact Or.inl (s.raise_mem e)

/-- The two stores, Fx33 and Fx55. -/
theorem store_memKeptOrStored {s t : State} {bs : List Byte}
    (h : s.complete ((s.writeAtI bs).map State.advance) = .next t) : memKeptOrStored s t :=
  State.complete_map_memKeptOrStored h fun u hwrite =>
    Or.inr ⟨s.i, bs, u.advance_mem.trans (State.writeAtI_mem hwrite)⟩

/-- All that an instruction can do to the memory; the stores are Fx33 and Fx55. -/
theorem exec_memKeptOrStored {i : Instr} {s t : State} (h : exec i s = .next t) : memKeptOrStored s t := by
  cases i with
  | ldBVx x => exact store_memKeptOrStored h
  | ldMemVx x => exact store_memKeptOrStored h
  | ret =>
    exact State.complete_map_memKeptOrStored h fun r hpop => Or.inl ((r.2.setPc_mem r.1).trans (State.pop_mem hpop))
  | callAddr addr =>
    exact State.complete_map_memKeptOrStored h fun u hpush => Or.inl ((u.setPc_mem addr).trans (State.push_mem hpush))
  | drwVxVyN x y n => exact State.complete_map_memKeptOrStored h fun bs _ => Or.inl (s.drawn_mem (s.reg x) (s.reg y) bs)
  | ldVxMem x => exact State.complete_map_memKeptOrStored h fun bs _ => Or.inl (s.setRegsFrom_mem 0 bs)
  | ldVxK x =>
    simp only [exec, execLdVxK] at h
    split at h
    · cases h
      exact Or.inl rfl
    · cases h
      exact Or.inl rfl
  | _ =>
    cases h
    exact Or.inl (by simp)

/-! ## The canonical form -/

theorem memKeptOrStored.wf {s t : State} (h : memKeptOrStored s t) (hparams : t.params = s.params)
    (hwf : s.mem.wf s.params.font = true) : t.mem.wf t.params.font = true := by
  rw [hparams]
  rcases h with hmem | ⟨a, bs, hmem⟩
  · exact hmem ▸ hwf
  · exact hmem ▸ Memory.wf_writeBytes hwf a bs

theorem exec_keeps_wf {i : Instr} {s t : State} (hwf : s.mem.wf s.params.font = true) (h : exec i s = .next t) :
    t.mem.wf t.params.font = true :=
  (exec_memKeptOrStored h).wf (exec_params h) hwf

/-- Settles O14: a step answers its own state, executes an instruction, or takes a fault, which keeps the memory. -/
theorem stepKeepsMemoryCanonical : Obligations.StepKeepsMemoryCanonical := by
  intro s t hwf h
  obtain ⟨_, hhalted⟩ | ⟨_, i, _, hexec⟩ | ⟨_, e, _, hraise⟩ := step_cases s
  · cases hhalted.symm.trans h
    exact hwf
  · exact exec_keeps_wf hwf (hexec.symm.trans h)
  · cases hraise.symm.trans h
    exact hwf

theorem execute_keeps_wf {w : Word} {s t : State} (hwf : s.mem.wf s.params.font = true) (h : execute w s = .next t) :
    t.mem.wf t.params.font = true := by
  obtain ⟨_, hhalted⟩ | ⟨_, i, _, hexec⟩ | ⟨_, _, hraise⟩ := execute_cases w s
  · cases hhalted.symm.trans h
    exact hwf
  · exact exec_keeps_wf hwf (hexec.symm.trans h)
  · cases hraise.symm.trans h
    exact hwf

theorem State.loadProgram_memKeptOrStored (s : State) (bs : List Byte) : memKeptOrStored s (s.loadProgram bs) := by
  rcases Nat.lt_or_ge 3584 bs.length with hlong | hfit
  · rw [State.loadProgram_of_too_long s hlong]
    split
    · exact Or.inl rfl
    · exact Or.inl (s.raise_mem _)
  · rw [State.loadProgram_of_fits s hfit]
    exact Or.inr ⟨0x200, bs, s.store_mem 0x200 bs⟩

/-- Settles O15: Step and Execute by the instruction, LoadProgram by its store; Reset lists nothing, and the others
leave the memory. -/
theorem transactionsKeepMemoryCanonical : Obligations.TransactionsKeepMemoryCanonical := by
  intro tr s t hwf h
  cases tr with
  | step => exact stepKeepsMemoryCanonical s t hwf h
  | execute w => exact execute_keeps_wf hwf h
  | loadProgram bs =>
    cases h
    exact (s.loadProgram_memKeptOrStored bs).wf (s.loadProgram_params bs) hwf
  | reset =>
    cases h
    rfl
  | seed _ | setKeys _ | tick | observe =>
    cases h
    exact hwf

end Sys2Proof.Machine

/-! The decoder and the encoder (`30_encoding.md` R60 to R70): what the decoder answers and how its tags number the
rows, that encoding and decoding undo each other, and that the legal words are those of the family table. -/

namespace Sys2Proof

/-! ## What a word fits -/

/-- All that decoding can do: the word fits a row, or fits none and is refused. -/
theorem decode_cases (w : Word) :
    (∃ r ∈ opcodeTable, w &&& r.mask = r.value ∧ decode w = .ok (r.op.build (fieldsOf w))) ∨
    ((∀ r ∈ opcodeTable, w &&& r.mask ≠ r.value) ∧ decode w = .error (.unrecognizedOpcode w)) := by
  cases hdecode : decode w with
  | ok i =>
    obtain ⟨r, hr, hfits, rfl⟩ := row_of_decode hdecode
    exact Or.inl ⟨r, hr, eq_of_beq hfits, rfl⟩
  | error e =>
    obtain rfl := Machine.decode_error hdecode
    refine Or.inr ⟨fun r hr hfits => ?_, rfl⟩
    cases (decode_of_row hr (beq_of_eq hfits)).symm.trans hdecode

@[simp] theorem decoderOutput_fields (w : Word) : (decoderOutput w).fields = fieldsOf w := by
  unfold decoderOutput
  split <;> rfl

theorem decoderOutput_of_fits {w : Word} {r : OpRow} (hr : r ∈ opcodeTable) (hfits : w &&& r.mask = r.value) :
    decoderOutput w = ⟨true, some r.op.tag, fieldsOf w⟩ := by
  simp [decoderOutput, decode_of_row hr (beq_of_eq hfits)]

/-- What the decoder block calls valid fits a row, and its tag is the row's. -/
theorem row_of_decoderOutput_valid {w : Word} (h : (decoderOutput w).valid = true) :
    ∃ r ∈ opcodeTable, w &&& r.mask = r.value ∧ (decoderOutput w).tag = some r.op.tag := by
  obtain ⟨r, hr, hfits, -⟩ | ⟨-, herror⟩ := decode_cases w
  · exact ⟨r, hr, hfits, by rw [decoderOutput_of_fits hr hfits]⟩
  · simp [decoderOutput, herror] at h

/-- An illegal word has no tag. -/
theorem decoderOutput_valid_of_tag {w : Word} {tag : BitVec 6} (h : (decoderOutput w).tag = some tag) :
    (decoderOutput w).valid = true := by
  unfold decoderOutput at h ⊢
  split at h
  · rfl
  · cases h

/-! ## The tags number the rows -/

/-- R70: row `k` of the table has tag `k`. -/
theorem opcodeTable_tags : opcodeTable.map (fun r => r.op.tag) = (List.range 34).map (BitVec.ofNat 6) := by
  decide

theorem row_eq_of_tag_eq {r q : OpRow} (hr : r ∈ opcodeTable) (hq : q ∈ opcodeTable) (htag : r.op.tag = q.op.tag) :
    r = q := by
  have hnodup : (opcodeTable.map fun r => r.op.tag).Nodup := by decide
  exact List.inj_on_of_nodup_map hnodup hr hq htag

/-- The match word of a row has no bit outside the row's mask. -/
theorem row_value_fits : ∀ r ∈ opcodeTable, r.value &&& r.mask = r.value := by
  decide

theorem decoderOutput_tag_row_value {r : OpRow} (hr : r ∈ opcodeTable) :
    (decoderOutput r.value).tag = some r.op.tag := by
  rw [decoderOutput_of_fits hr (row_value_fits r hr)]

/-- Settles O5: `opcodeTable_tags`, read by position, at the match words, and as a bound. -/
theorem tagsNumberTheTableRows : Obligations.TagsNumberTheTableRows := by
  refine ⟨rfl, fun k => ?_, ?_, fun w tag htag => ?_⟩
  · rw [← List.getElem?_map, opcodeTable_tags]
    simp
  · calc _ = (opcodeTable.map fun r => r.value).map fun w => (decoderOutput w).tag := rfl
      _ = (opcodeTable.map fun r => r.op.tag).map some := by
        rw [List.map_map, List.map_map]
        exact List.map_congr_left fun r hr => decoderOutput_tag_row_value hr
      _ = _ := by rw [opcodeTable_tags, List.map_map]; rfl
  · obtain ⟨r, hr, -, hrow⟩ := row_of_decoderOutput_valid (decoderOutput_valid_of_tag htag)
    have hmem : tag ∈ opcodeTable.map fun r => r.op.tag :=
      List.mem_map.2 ⟨r, hr, Option.some.inj (hrow.symm.trans htag)⟩
    rw [opcodeTable_tags, List.mem_map] at hmem
    obtain ⟨k, hk, rfl⟩ := hmem
    have := List.mem_range.1 hk
    rw [BitVec.toNat_ofNat]
    omega

/-- Settles O4: a word fits at most the row its tag numbers, and its fields are numbers by `fieldsOf_val`. -/
theorem decoderIsTheMaskedComparison : Obligations.DecoderIsTheMaskedComparison := by
  intro w
  rw [decoderOutput_fields]
  refine ⟨fun r hr => ⟨fun ⟨hvalid, htag⟩ => ?_, fun hfits => ?_⟩, ⟨fun hvalid => ?_, fun ⟨r, hr, hfits⟩ => ?_⟩,
    fieldsOf_val w⟩
  · obtain ⟨q, hq, hfits, hrow⟩ := row_of_decoderOutput_valid hvalid
    obtain rfl : r = q := row_eq_of_tag_eq hr hq (Option.some.inj (htag.symm.trans hrow))
    exact hfits
  · rw [decoderOutput_of_fits hr hfits]
    exact ⟨rfl, rfl⟩
  · obtain ⟨r, hr, hfits, -⟩ := row_of_decoderOutput_valid hvalid
    exact ⟨r, hr, hfits⟩
  · rw [decoderOutput_of_fits hr hfits]

/-! ## Encoding, then decoding -/

open Laws.EncodingRow in
/-- The encoding of every instruction fits the row of its operation. -/
theorem encode_fits_row (i : Instr) : Statement i := by
  cases i
  exacts [cls, ret, jpAddr _, callAddr _, seVxKk _ _, sneVxKk _ _, seVxVy _ _, sneVxVy _ _, ldVxKk _ _, addVxKk _ _,
    ldVxVy _ _, orVxVy _ _, andVxVy _ _, xorVxVy _ _, addVxVy _ _, subVxVy _ _, subnVxVy _ _, shrVx _ _, shlVx _ _,
    ldIAddr _, jpV0Addr _, rndVxKk _ _, drwVxVyN _ _ _, skpVx _, sknpVx _, ldVxDt _, ldDtVx _, ldStVx _, ldVxK _,
    addIVx _, ldFVx _, ldBVx _, ldMemVx _, ldVxMem _]

/-- The fields an instruction's format uses stand in its encoding, format by format. -/
theorem build_fieldsOf_encode (i : Instr) : i.op.build (fieldsOf (encode i)) = i := by
  cases i with
  | cls | ret => rfl
  | jpAddr addr | callAddr addr | ldIAddr addr | jpV0Addr addr =>
    simp only [Instr.op, Op.build, encode, fieldsOf_addr]
  | seVxKk x kk | sneVxKk x kk | ldVxKk x kk | addVxKk x kk | rndVxKk x kk =>
    simp only [Instr.op, Op.build, encode, fieldsOf_xk_x, fieldsOf_xk_kk, nibble_toFin]
  | seVxVy x y | sneVxVy x y | ldVxVy x y | orVxVy x y | andVxVy x y | xorVxVy x y | addVxVy x y | subVxVy x y
  | subnVxVy x y | shrVx x y | shlVx x y =>
    simp only [Instr.op, Op.build, encode, fieldsOf_xyn_x, fieldsOf_xyn_y, nibble_toFin]
  | drwVxVyN x y n =>
    simp only [Instr.op, Op.build, encode, fieldsOf_xyn_x, fieldsOf_xyn_y, fieldsOf_xyn_n, nibble_toFin]
  | skpVx x | sknpVx x | ldVxDt x | ldDtVx x | ldStVx x | ldVxK x | addIVx x | ldFVx x | ldBVx x | ldMemVx x
  | ldVxMem x =>
    simp only [Instr.op, Op.build, encode, fieldsOf_xk_x, nibble_toFin]

theorem decode_encode (i : Instr) : decode (encode i) = .ok i := by
  obtain ⟨r, hr, hop, hfits⟩ := encode_fits_row i
  rw [decode_of_row hr hfits, hop, build_fieldsOf_encode]

/-- Settles O2: the word by the row it fits and the fields it keeps, the bytes by putting them together again. -/
theorem decodeInvertsEncode : Obligations.DecodeInvertsEncode := by
  refine fun i => ⟨decode_encode i, fun rest => ?_⟩
  calc decodeBytes (encodeBytes i ++ rest)
      = (decode (wordOfBytes ((encode i).extractLsb' 8 8) ((encode i).extractLsb' 0 8))).map (fun j => (j, rest)) := rfl
    _ = .ok (i, rest) := by rw [wordOfBytes_extract, decode_encode]; rfl

/-! ## The digits of a word -/

theorem family_toNat (w : Word) : (w.extractLsb' 12 4).toNat = w.toNat / 0x1000 := by
  rw [BitVec.extractLsb'_toNat, Nat.shiftRight_eq_div_pow]
  omega

theorem word_eq_a (w : Word) : w = w.extractLsb' 12 4 ++ (fieldsOf w).addr := by
  obtain ⟨-, -, -, -, haddr⟩ := fieldsOf_val w
  rw [word_a, family_toNat, haddr, Nat.div_add_mod, BitVec.ofNat_toNat, BitVec.setWidth_eq]

theorem word_eq_xk (w : Word) : w = w.extractLsb' 12 4 ++ nibble (fieldsOf w).x ++ (fieldsOf w).kk := by
  obtain ⟨hx, -, -, hkk, -⟩ := fieldsOf_val w
  have hsum : 0x1000 * (w.toNat / 0x1000) + 0x100 * (w.toNat / 256 % 16) + w.toNat % 256 = w.toNat := by omega
  rw [word_xk, family_toNat, hx, hkk, hsum, BitVec.ofNat_toNat, BitVec.setWidth_eq]

theorem word_eq_xyn (w : Word) :
    w = w.extractLsb' 12 4 ++ nibble (fieldsOf w).x ++ nibble (fieldsOf w).y ++ (fieldsOf w).n := by
  obtain ⟨hx, hy, hn, -, -⟩ := fieldsOf_val w
  have hsum : 0x1000 * (w.toNat / 0x1000) + 0x100 * (w.toNat / 256 % 16) + 0x10 * (w.toNat / 16 % 16) +
      w.toNat % 16 = w.toNat := by omega
  rw [word_xyn, family_toNat, hx, hy, hn, hsum, BitVec.ofNat_toNat, BitVec.setWidth_eq]

/-! ## Decoding, then encoding -/

/-- The fixed bits of a format's words (R62, R64). -/
def Format.mask : Format → Word
  | .z => 0xFFFF
  | .a | .xk | .xyn => 0xF000
  | .xy => 0xF00F
  | .x => 0xF0FF

theorem and_FFFF (w : Word) : w &&& 0xFFFF = w :=
  BitVec.and_allOnes

theorem row_mask : ∀ r ∈ opcodeTable, r.mask = r.op.format.mask := by
  decide

/-- Two words that agree under a mask agree wherever the mask is all ones. -/
theorem extractLsb'_eq_of_and_eq {w v m : Word} (h : w &&& m = v &&& m) (k : Nat) {n : Nat}
    (hm : m.extractLsb' k n = BitVec.allOnes n) : w.extractLsb' k n = v.extractLsb' k n := by
  have hextract := congrArg (BitVec.extractLsb' k n) h
  rwa [BitVec.extractLsb'_and, BitVec.extractLsb'_and, hm, BitVec.and_allOnes, BitVec.and_allOnes] at hextract

/-- The fixed bits and the fields of its format determine a word: each of its digits is among the one or the other. -/
theorem eq_of_fixedBits_of_build (o : Op) {w v : Word} (hfixed : w &&& o.format.mask = v &&& o.format.mask)
    (hbuild : o.build (fieldsOf w) = o.build (fieldsOf v)) : w = v := by
  have hfamily : w.extractLsb' 12 4 = v.extractLsb' 12 4 :=
    extractLsb'_eq_of_and_eq hfixed 12 (by cases o <;> rfl)
  cases o with
  | cls | ret => exact (and_FFFF w).symm.trans (hfixed.trans (and_FFFF v))
  | jpAddr | callAddr | ldIAddr | jpV0Addr =>
    injection hbuild with haddr
    rw [word_eq_a w, word_eq_a v, hfamily, haddr]
  | seVxKk | sneVxKk | ldVxKk | addVxKk | rndVxKk =>
    injection hbuild with hx hkk
    rw [word_eq_xk w, word_eq_xk v, hfamily, hx, hkk]
  | seVxVy | sneVxVy | ldVxVy | orVxVy | andVxVy | xorVxVy | addVxVy | subVxVy | subnVxVy | shrVx | shlVx =>
    injection hbuild with hx hy
    have hn : (fieldsOf w).n = (fieldsOf v).n := extractLsb'_eq_of_and_eq hfixed 0 rfl
    rw [word_eq_xyn w, word_eq_xyn v, hfamily, hx, hy, hn]
  | drwVxVyN =>
    injection hbuild with hx hy hn
    rw [word_eq_xyn w, word_eq_xyn v, hfamily, hx, hy, hn]
  | skpVx | sknpVx | ldVxDt | ldDtVx | ldStVx | ldVxK | addIVx | ldFVx | ldBVx | ldMemVx | ldVxMem =>
    injection hbuild with hx
    have hkk : (fieldsOf w).kk = (fieldsOf v).kk := extractLsb'_eq_of_and_eq hfixed 0 rfl
    rw [word_eq_xk w, word_eq_xk v, hfamily, hx, hkk]

/-- Settles O3: a word and the encoding of what it decodes to fit the same row and have the same fields. -/
theorem encodeInvertsDecode : Obligations.EncodeInvertsDecode := by
  intro w i hdecode
  obtain ⟨r, hr, hfits, hi⟩ := row_of_decode hdecode
  obtain ⟨q, hq, hop, hencoded⟩ := encode_fits_row i
  have hop' : i.op = r.op := hi ▸ r.op.build_op (fieldsOf w)
  obtain rfl : q = r := row_eq_of_tag_eq hq hr (congrArg Op.tag (hop.trans hop'))
  refine eq_of_fixedBits_of_build q.op ?_ ?_
  · rw [← row_mask q hq]
    exact (eq_of_beq hencoded).trans (eq_of_beq hfits).symm
  · rw [hop, build_fieldsOf_encode, ← hop, hi]

/-! ## The masked comparison as a comparison of digits -/

theorem toNat_and_F000 (w : Word) : (w &&& 0xF000).toNat = 0x1000 * (w.toNat / 0x1000) := by
  rw [congrArg (· &&& 0xF000) (word_eq_a w), mask_high, append_toNat, family_toNat, BitVec.toNat_ofNat]
  omega

theorem toNat_and_F00F (w : Word) : (w &&& 0xF00F).toNat = 0x1000 * (w.toNat / 0x1000) + w.toNat % 0x10 := by
  obtain ⟨-, -, hn, -, -⟩ := fieldsOf_val w
  rw [congrArg (· &&& 0xF00F) (word_eq_xyn w), mask_high_low, append_toNat, append_toNat, append_toNat, family_toNat,
    hn, BitVec.toNat_ofNat]
  omega

theorem toNat_and_F0FF (w : Word) : (w &&& 0xF0FF).toNat = 0x1000 * (w.toNat / 0x1000) + w.toNat % 0x100 := by
  obtain ⟨-, -, -, hkk, -⟩ := fieldsOf_val w
  rw [congrArg (· &&& 0xF0FF) (word_eq_xk w), mask_high_byte, append_toNat, append_toNat, family_toNat, hkk,
    BitVec.toNat_ofNat]
  omega

theorem and_FFFF_eq_iff {w v : Word} : w &&& 0xFFFF = v ↔ w.toNat = v.toNat := by
  rw [and_FFFF, BitVec.toNat_inj]

theorem and_F000_eq_iff {w v : Word} (hv : v &&& 0xF000 = v) :
    w &&& 0xF000 = v ↔ w.toNat / 0x1000 = v.toNat / 0x1000 := by
  rw [← BitVec.toNat_inj, toNat_and_F000] at hv ⊢
  omega

theorem and_F00F_eq_iff {w v : Word} (hv : v &&& 0xF00F = v) :
    w &&& 0xF00F = v ↔ w.toNat / 0x1000 = v.toNat / 0x1000 ∧ w.toNat % 0x10 = v.toNat % 0x10 := by
  rw [← BitVec.toNat_inj, toNat_and_F00F] at hv ⊢
  omega

theorem and_F0FF_eq_iff {w v : Word} (hv : v &&& 0xF0FF = v) :
    w &&& 0xF0FF = v ↔ w.toNat / 0x1000 = v.toNat / 0x1000 ∧ w.toNat % 0x100 = v.toNat % 0x100 := by
  rw [← BitVec.toNat_inj, toNat_and_F0FF] at hv ⊢
  omega

/-! ## The legal words -/

/-- The family table of R66 and the opcode table have the same words, family by family. -/
theorem legalWord_iff_exists_row (w : Word) : legalWord w = true ↔ ∃ r ∈ opcodeTable, w &&& r.mask = r.value := by
  have hfamily : w.toNat / 0x1000 < 0x10 := by omega
  simp only [opcodeTable, opRowsFlow, opRowsAlu, opRowsIndex, opRowsFx, List.cons_append, List.nil_append,
    List.exists_mem_cons_iff, List.not_mem_nil, false_and, exists_false, or_false]
  simp (disch := decide) only [and_FFFF_eq_iff, and_F000_eq_iff, and_F00F_eq_iff, and_F0FF_eq_iff, BitVec.reduceToNat,
    Nat.reduceDiv, Nat.reduceMod]
  unfold legalWord
  dsimp only
  split
  -- family 0: two words
  case h_1 hf =>
    simp only [hf, Bool.or_eq_true, beq_iff_eq, ← BitVec.toNat_inj, BitVec.reduceToNat, Nat.reduceEqDiff, false_and,
      or_false]
  -- families 5, 8, 9, E, F: the low digits decide
  case h_2 hf | h_3 hf | h_4 hf | h_5 hf | h_6 hf =>
    simp only [hf, Bool.or_eq_true, beq_iff_eq, decide_eq_true_eq, Nat.reduceEqDiff, true_and, false_and, or_false,
      false_or]
    omega
  -- the other ten families: every word is legal
  case h_7 h0 h5 h8 h9 hE hF =>
    rw [imp_false] at h0 h5 h8 h9 hE hF
    simp only [h5, h8, h9, hE, hF, false_and, or_false, false_or, true_iff]
    omega

/-- Settles O6: a word that fits no row is refused by its name, and a refused word is executed by latching it. -/
theorem illegalWordsAreTheFamilyTable : Obligations.IllegalWordsAreTheFamilyTable := by
  intro w
  obtain ⟨r, hr, hfits, hok⟩ | ⟨hnone, herror⟩ := decode_cases w
  · have hlegal : legalWord w = true := (legalWord_iff_exists_row w).2 ⟨r, hr, hfits⟩
    simp [hok, hlegal]
  · have hillegal : legalWord w = false := by
      refine Bool.eq_false_iff.2 fun hlegal => ?_
      obtain ⟨r, hr, hfits⟩ := (legalWord_iff_exists_row w).1 hlegal
      exact hnone r hr hfits
    refine ⟨⟨fun _ => hillegal, fun _ => herror⟩, fun s hs _ => ?_⟩
    obtain ⟨hhalted, -⟩ | ⟨-, i, hok, -⟩ | ⟨-, -, hraise⟩ := Machine.execute_cases w s
    · exact absurd hs hhalted
    · cases herror.symm.trans hok
    · exact hraise

end Sys2Proof

/-! Control transfer (`40_flow.md` R80 to R88): the words of the eight instructions, and where each leaves `pc`. -/

namespace Sys2Proof

/-- A word given as a number decodes to the instruction whose pattern (R64) is that number. -/
theorem decode_of_encode_eq {i : Instr} {w : Word} (h : encode i = w) : decode w = .ok i :=
  h ▸ decode_encode i

end Sys2Proof

namespace Sys2Proof.Machine

/-! ## The program counter -/

theorem State.nextPc_toNat (s : State) : s.nextPc.toNat = s.stepsOn 1 := by
  rw [State.stepsOn, Nat.one_mul]
  exact s.advance_pc_toNat

/-- All that a conditional skip does: one step or two, as its condition says (R84 to R87, R131, R132). -/
theorem exec_of_skipIf {i : Instr} {s : State} {c : Bool} {p : Prop} [Decidable p]
    (h : exec i s = .next (s.skipIf c)) (hc : c = true ↔ p) :
    ∃ t, exec i s = .next t ∧ t.pc.toNat = s.stepsOn (if p then 2 else 1) ∧ onlyChanges s t [.pc] := by
  have hpc : (s.skipIf c).pc.toNat = s.stepsOn (if c then 2 else 1) := s.skipIf_pc_toNat c
  simp only [hc] at hpc
  exact ⟨_, h, hpc, s.onlyChanges_skipIf c⟩

/-! ## Return and call -/

/-- Settles O36: on a stack in use by `exec_ret_of_succ`, on an empty one by `exec_ret_of_empty`. -/
theorem returnPopsThePc : Obligations.ReturnPopsThePc := by
  refine ⟨decode_encode .ret, fun s => ⟨fun k hk => ?_, exec_ret_of_empty⟩⟩
  exact ⟨_, exec_ret_of_succ hk, rfl, rfl, (s.onlyChanges_popped _).append (State.onlyChanges_setPc _ _)⟩

/-- Settles O38: with a slot free by `exec_callAddr_of_slot`, on a full stack by `exec_callAddr_of_full`. -/
theorem callPushesTheReturnAddress : Obligations.CallPushesTheReturnAddress := by
  intro addr
  refine ⟨decode_of_encode_eq (word_a 0x2#4 addr), fun s => ⟨fun k hk => ?_, fun hfull => ?_⟩⟩
  · have hslot : (s.stack.set k.val s.nextPc)[k.val].toNat = s.stepsOn 1 := by
      rw [Vector.getElem_set_self, s.nextPc_toNat]
    exact ⟨_, exec_callAddr_of_slot hk addr, rfl, hslot, rfl,
      (s.onlyChanges_pushed k _ _).append (State.onlyChanges_setPc _ _)⟩
  · exact exec_callAddr_of_full hfull addr

/-! ## Skips -/

/-- Settles O40: the condition of each skip is its comparison with the immediate. -/
theorem immediateSkipsCompare : Obligations.ImmediateSkipsCompare := by
  intro x kk
  refine ⟨decode_of_encode_eq (word_xk 0x3#4 x kk), decode_of_encode_eq (word_xk 0x4#4 x kk), fun s => ⟨?_, ?_⟩⟩
  · exact exec_of_skipIf rfl beq_iff_eq
  · exact exec_of_skipIf rfl bne_iff_ne

/-- Settles O41: the condition of each skip is its comparison of the two registers. -/
theorem registerSkipsCompare : Obligations.RegisterSkipsCompare := by
  intro x y
  refine ⟨decode_of_encode_eq (word_xyn 0x5#4 x y 0), decode_of_encode_eq (word_xyn 0x9#4 x y 0), fun s => ⟨?_, ?_⟩⟩
  · exact exec_of_skipIf rfl beq_iff_eq
  · exact exec_of_skipIf rfl bne_iff_ne

/-! ## Jumps -/

/-- Settles O37: the jump writes the program counter and nothing else. -/
theorem jumpSetsThePc : Obligations.JumpSetsThePc :=
  fun addr => ⟨decode_of_encode_eq (word_a 0x1#4 addr), fun s => ⟨_, rfl, s.setPc_pc addr, s.onlyChanges_setPc addr⟩⟩

/-- A byte added to an address wraps at 12 bits, the spec's decision D3 (R83, R111). -/
theorem add_zext12_toNat (a : Addr) (b : Byte) : (a + zext12 b).toNat = (a.toNat + b.toNat) % 4096 := by
  rw [BitVec.toNat_add, zext12, BitVec.toNat_setWidth_of_le (by decide)]

/-- Settles O39: the jump is to the 12-bit sum, `add_zext12_toNat`. -/
theorem computedJumpAddsRegisterZero : Obligations.ComputedJumpAddsRegisterZero :=
  fun addr => ⟨decode_of_encode_eq (word_a 0xB#4 addr),
    fun s => ⟨_, rfl, add_zext12_toNat addr (s.reg 0), s.onlyChanges_setPc _⟩⟩

end Sys2Proof.Machine

/-! Register, arithmetic, logic, shift and random instructions (`41_alu.md` R90 to R102): each writes its result, some
the flag after it, and ends with `Next`. -/

namespace Sys2Proof

/-- The word of two registers with its fixed digits, the first and the last, summed into one number (R64). -/
theorem decode_of_encode_eq_xyn {i : Instr} {x y : RegNum} {h n : BitVec 4} {k : Nat}
    (hword : encode i = h ++ nibble x ++ nibble y ++ n) (hk : 0x1000 * h.toNat + n.toNat = k) :
    decode (BitVec.ofNat 16 (k + 0x100 * x.val + 0x10 * y.val)) = .ok i := by
  apply decode_of_encode_eq
  rw [hword, word_xyn, ← hk]
  congr 1
  omega

end Sys2Proof

namespace Sys2Proof.Machine

/-! ## How these instructions end -/

/-- Any update that leaves `pc` and the configuration alone, and `Next` after it (R15). -/
theorem onlyChanges.advance {s t : State} {w : List Place} (h : onlyChanges s t w) (hpc : t.pc = s.pc)
    (hparams : t.params = s.params) : t.advance.pc.toNat = s.stepsOn 1 ∧ onlyChanges s t.advance (w ++ [.pc]) := by
  constructor
  · rw [State.advance_pc, State.nextPc_toNat, State.stepsOn, State.stepsOn, hpc, hparams]
  · exact (h.append t.onlyChanges_advance).mono (by simp)

/-- All that an instruction without a flag does (R90 to R95). -/
theorem exec_of_setReg {i : Instr} {s : State} {x : RegNum} {b : Byte} (h : exec i s = .next (s.setReg x b).advance) :
    ∃ t, exec i s = .next t ∧ t.reg x = b ∧ t.pc.toNat = s.stepsOn 1 ∧ onlyChanges s t [.reg x, .pc] :=
  ⟨_, h, s.reg_setReg_self x b, (s.onlyChanges_setReg x b).advance rfl rfl⟩

/-- All that an instruction with a flag does: the result, then the flag over it where `x` is `VF` (R96 to R100, R12). -/
theorem exec_of_setResultFlag {i : Instr} {s : State} {x : RegNum} {b f : Byte} {c : Bool} {r : Nat}
    (h : exec i s = .next (s.setResultFlag x b c).advance) (hresult : b.toNat = r) (hflag : flagByte c = f) :
    ∃ t, exec i s = .next t ∧ (x ≠ 15 → (t.reg x).toNat = r) ∧ t.reg 15 = f ∧
      t.pc.toNat = s.stepsOn 1 ∧ onlyChanges s t [.reg x, .reg 15, .pc] := by
  refine ⟨_, h, fun hx => ?_, ?_, (s.onlyChanges_setResultFlag x b c).advance rfl rfl⟩
  · rw [State.advance_reg, s.reg_setResultFlag_self hx, hresult]
  · rw [State.advance_reg, s.reg_setResultFlag_vf, hflag]

/-! ## Load immediate, add immediate and move -/

/-- Settles O42: the load writes its immediate, `exec_of_setReg`. -/
theorem loadImmediateSetsTheRegister : Obligations.LoadImmediateSetsTheRegister :=
  fun x kk => ⟨decode_of_encode_eq (word_xk 0x6#4 x kk), fun _ => exec_of_setReg rfl⟩

/-- Settles O43: the add writes the 8-bit sum by `exec_of_setReg`, so no flag. -/
theorem addImmediateWrapsWithoutFlag : Obligations.AddImmediateWrapsWithoutFlag := by
  intro x kk
  refine ⟨decode_of_encode_eq (word_xk 0x7#4 x kk), fun s => ?_⟩
  obtain ⟨t, hexec, hsum, hrest⟩ := exec_of_setReg (i := .addVxKk x kk) (s := s) rfl
  exact ⟨t, hexec, by rw [hsum, BitVec.toNat_add], hrest⟩

/-- Settles O44: the move writes what the other register holds, `exec_of_setReg`. -/
theorem moveCopiesTheRegister : Obligations.MoveCopiesTheRegister :=
  fun x y => ⟨decode_of_encode_eq (word_xyn 0x8#4 x y 0x0#4), fun _ => exec_of_setReg rfl⟩

/-! ## Logic -/

/-- Settles O45: each operation writes by `exec_of_setReg` the operation of the two bytes, which acts on each bit. -/
theorem logicWorksBitByBit : Obligations.LogicWorksBitByBit := by
  intro x y
  refine ⟨decode_of_encode_eq_xyn rfl rfl, decode_of_encode_eq_xyn rfl rfl,
    decode_of_encode_eq_xyn rfl rfl, fun s => ⟨?_, ?_, ?_⟩⟩
  · obtain ⟨t, hexec, hor, hrest⟩ := exec_of_setReg (i := .orVxVy x y) (s := s) rfl
    exact ⟨t, hexec, fun j => by rw [hor, BitVec.getLsbD_or], hrest⟩
  · obtain ⟨t, hexec, hand, hrest⟩ := exec_of_setReg (i := .andVxVy x y) (s := s) rfl
    exact ⟨t, hexec, fun j => by rw [hand, BitVec.getLsbD_and], hrest⟩
  · obtain ⟨t, hexec, hxor, hrest⟩ := exec_of_setReg (i := .xorVxVy x y) (s := s) rfl
    exact ⟨t, hexec, fun j => by rw [hxor, BitVec.getLsbD_xor, Bool.bne_eq_xor], hrest⟩

/-! ## Add and subtract -/

theorem flagByte_decide (p : Prop) [Decidable p] : flagByte (decide p) = if p then 1 else 0 := by
  simp [flagByte]

/-- Settles O46: the sum is taken modulo 256, and the flag is the model's `carryOut`. -/
theorem addReportsTheCarry : Obligations.AddReportsTheCarry :=
  fun _ _ => ⟨decode_of_encode_eq_xyn rfl rfl,
    fun _ => exec_of_setResultFlag rfl (BitVec.toNat_add _ _) (flagByte_decide _)⟩

/-- The difference modulo 256, the minuend raised by 256 so that nothing is cut off at 0 (R102). -/
theorem sub_toNat (minuend subtrahend : Byte) :
    (minuend - subtrahend).toNat = (256 + minuend.toNat - subtrahend.toNat) % 256 := by
  have := subtrahend.isLt
  rw [BitVec.toNat_sub]
  omega

/-- Settles O47: `V[x]` is the minuend of the first subtract and `V[y]` of the second; the flag is the model's
`noBorrow`. -/
theorem subtractsReportNoBorrow : Obligations.SubtractsReportNoBorrow := by
  intro x y
  refine ⟨decode_of_encode_eq_xyn rfl rfl, decode_of_encode_eq_xyn rfl rfl,
    fun s => ⟨?_, ?_⟩⟩
  · exact exec_of_setResultFlag rfl (sub_toNat (s.reg x) (s.reg y)) (flagByte_decide _)
  · exact exec_of_setResultFlag rfl (sub_toNat (s.reg y) (s.reg x)) (flagByte_decide _)

/-! ## Shifts -/

/-- A bit of a byte, kept as a flag (R98, R100). -/
theorem flagByte_getLsbD_toNat (a : Byte) (k : Nat) : (flagByte (a.getLsbD k)).toNat = a.toNat / 2 ^ k % 2 := by
  rw [flagByte_toNat, BitVec.getLsbD, ← Nat.toNat_testBit, Bool.toNat, Bool.cond_eq_ite]

theorem shiftedOutRight_toNat (a : Byte) : (flagByte (shiftedOutRight a)).toNat = a.toNat % 2 := by
  rw [shiftedOutRight, flagByte_getLsbD_toNat, Nat.pow_zero, Nat.div_one]

theorem shiftedOutLeft_toNat (a : Byte) : (flagByte (shiftedOutLeft a)).toNat = a.toNat / 128 := by
  have := a.isLt
  rw [shiftedOutLeft, flagByte_getLsbD_toNat]
  omega

theorem shiftRight_one_toNat (a : Byte) : (a >>> 1).toNat = a.toNat / 2 := by
  rw [BitVec.toNat_ushiftRight, Nat.shiftRight_eq_div_pow, Nat.pow_one]

theorem shiftLeft_one_toNat (a : Byte) : (a <<< 1).toNat = 2 * a.toNat % 256 := by
  rw [BitVec.toNat_shiftLeft, Nat.shiftLeft_eq, Nat.pow_one, Nat.mul_comm]

/-- Settles O48: the result is half or twice the value, and the flag the bit the shift loses, `shiftedOutRight_toNat`
and `shiftedOutLeft_toNat`; `y` is in the word alone (R67). -/
theorem shiftsReportTheLostBit : Obligations.ShiftsReportTheLostBit := by
  intro x y
  refine ⟨decode_of_encode_eq_xyn rfl rfl, decode_of_encode_eq_xyn rfl rfl,
    fun s => ⟨?_, ?_⟩⟩
  · obtain ⟨t, hexec, hhalf, hlost, hrest⟩ :=
      exec_of_setResultFlag (i := .shrVx x y) rfl (shiftRight_one_toNat (s.reg x)) rfl
    exact ⟨t, hexec, hhalf, by rw [hlost, shiftedOutRight_toNat], hrest⟩
  · obtain ⟨t, hexec, hdouble, hlost, hrest⟩ :=
      exec_of_setResultFlag (i := .shlVx x y) rfl (shiftLeft_one_toNat (s.reg x)) rfl
    exact ⟨t, hexec, hdouble, by rw [hlost, shiftedOutLeft_toNat], hrest⟩

/-! ## Random byte -/

/-- Settles O49: one draw, then its masked byte written; a bit of the mask that is 0 is 0 in the byte whatever was
drawn. -/
theorem randomDrawsOneByte : Obligations.RandomDrawsOneByte := by
  intro x kk
  refine ⟨decode_of_encode_eq (word_xk 0xC#4 x kk), fun s => ?_⟩
  have hreg : (s.draw.2.setReg x (s.draw.1 &&& kk)).advance.reg x = (Config.rngNext s.rng).1 &&& kk :=
    s.draw.2.reg_setReg_self x _
  have hframe := s.onlyChanges_draw.append (s.draw.2.onlyChanges_setReg x (s.draw.1 &&& kk))
  refine ⟨_, rfl, hreg, rfl, fun j hj => ?_, hframe.advance rfl rfl⟩
  rw [hreg, BitVec.getLsbD_and, hj, Bool.and_false]

end Sys2Proof.Machine

/-! Index register, loads and stores (`42_index_memory.md` R110 to R116): three instructions set the index register, two
store at it, one loads from it; a range that leaves the address space is the fault and nothing else. -/

namespace Sys2Proof

/-- The word of one register with its fixed digits, the first and the last two, summed into one number (R64). -/
theorem decode_of_encode_eq_x {i : Instr} {x : RegNum} {h : BitVec 4} {kk : Byte} {k : Nat}
    (hword : encode i = h ++ nibble x ++ kk) (hk : 0x1000 * h.toNat + kk.toNat = k) :
    decode (BitVec.ofNat 16 (k + 0x100 * x.val)) = .ok i := by
  apply decode_of_encode_eq
  rw [hword, word_xk, ← hk]
  congr 1
  omega

end Sys2Proof

namespace Sys2Proof.Machine

/-- `onlyChanges.advance` with `pc` first, as the access tables list it before a range of bytes or registers. -/
theorem onlyChanges.advance_cons {s t : State} {w : List Place} (h : onlyChanges s t w) (hpc : t.pc = s.pc)
    (hparams : t.params = s.params) : t.advance.pc.toNat = s.stepsOn 1 ∧ onlyChanges s t.advance (.pc :: w) := by
  obtain ⟨hnext, -⟩ := h.advance hpc hparams
  exact ⟨hnext, h.append t.onlyChanges_advance⟩

/-! ## The index register -/

/-- Settles O50: the load writes the index register, then `Next`. -/
theorem loadIndexSetsI : Obligations.LoadIndexSetsI :=
  fun addr => ⟨decode_of_encode_eq (word_a 0xA#4 addr),
    fun s => ⟨_, rfl, s.setI_i addr, (s.onlyChanges_setI addr).advance rfl rfl⟩⟩

/-- Settles O51: the index register takes the 12-bit sum, `add_zext12_toNat`. -/
theorem addToIndexWraps : Obligations.AddToIndexWraps :=
  fun x => ⟨decode_of_encode_eq_x rfl rfl,
    fun s => ⟨_, rfl, add_zext12_toNat s.i (s.reg x), (s.onlyChanges_setI _).advance rfl rfl⟩⟩

/-- Five times a byte is at most 1275, so the product on 12 bits does not wrap (R112). -/
theorem glyphAddr_toNat (v : Byte) : (glyphAddr v).toNat = 5 * v.toNat := by
  have := v.isLt
  have hbase : Config.fontBase.toNat = 0 := rfl
  have hbytes : (BitVec.ofNat 12 Config.fontGlyphBytes).toNat = 5 := rfl
  rw [glyphAddr, BitVec.toNat_add, BitVec.toNat_mul, hbase, hbytes, zext12, BitVec.toNat_setWidth_of_le (by decide)]
  omega

/-- Settles O52: the glyph's address is five times the value, `glyphAddr_toNat`. -/
theorem fontAddressIsFiveTimes : Obligations.FontAddressIsFiveTimes :=
  fun x => ⟨decode_of_encode_eq_x rfl rfl,
    fun s => ⟨_, rfl, glyphAddr_toNat (s.reg x), (s.onlyChanges_setI _).advance rfl rfl⟩⟩

/-! ## Stores -/

/-- A store whose range fits is made, and then `Next`. -/
theorem State.complete_writeAtI_of_fits (s : State) {bs : List Byte} (hfit : s.i.toNat + bs.length ≤ 4096) :
    s.complete ((s.writeAtI bs).map State.advance) = .next (s.store s.i bs).advance := by
  rw [State.writeAtI_eq, if_neg (Nat.not_lt.2 hfit)]
  rfl

/-- A store whose range leaves the address space latches the violation and stores nothing (R47). -/
theorem State.complete_writeAtI_of_leaves (s : State) {bs : List Byte} (hout : 4096 < s.i.toNat + bs.length) :
    s.complete ((s.writeAtI bs).map State.advance) =
      .next (s.raise (.addressSpaceViolation .data s.i bs.length)) := by
  rw [State.writeAtI_eq, if_pos hout]
  rfl

/-- What a completed store leaves: `pc` one step on, and every place outside the range as it was (R116). -/
theorem State.onlyChanges_store_advance (s : State) {bs : List Byte} (hfit : s.i.toNat + bs.length ≤ 4096) :
    (s.store s.i bs).advance.pc.toNat = s.stepsOn 1 ∧
      onlyChanges s (s.store s.i bs).advance (.pc :: bytesAt s.i bs.length) :=
  (s.onlyChanges_store s.i bs hfit).advance_cons rfl rfl

/-- The byte of a digit cuts nothing off (R113). -/
theorem digit_toNat {d : Nat} (hd : d < 256) : (BitVec.ofNat 8 d).toNat = d :=
  (BitVec.toNat_ofNat d 8).trans (Nat.mod_eq_of_lt hd)

/-- Fx33 stores its digits at the three bytes from the index register up. -/
theorem State.byte_store_decimalDigits (s : State) (v : Byte) (hfit : s.i.toNat + 2 ≤ 0xFFF) :
    ((s.store s.i (decimalDigits v)).byte s.i).toNat = v.toNat / 100 ∧
    ((s.store s.i (decimalDigits v)).byte (s.i + 1)).toNat = v.toNat / 10 % 10 ∧
    ((s.store s.i (decimalDigits v)).byte (s.i + 2)).toNat = v.toNat % 10 := by
  have hv := v.isLt
  have hbyte (k : Nat) (hk : k < 3) := congrArg BitVec.toNat
    (s.byte_store_inside s.i (decimalDigits v) (show s.i.toNat + 3 ≤ 4096 by omega) k hk)
  have hundreds := hbyte 0 (by decide)
  rw [BitVec.add_zero] at hundreds
  exact ⟨hundreds.trans (digit_toNat (by omega)),
    (hbyte 1 (by decide)).trans (digit_toNat (by omega)),
    (hbyte 2 (by decide)).trans (digit_toNat (by omega))⟩

/-- Settles O53: the three digits by `State.byte_store_decimalDigits`; a range of three bytes fits up to 0xFFD. -/
theorem decimalStoreWritesThreeDigits : Obligations.DecimalStoreWritesThreeDigits := by
  intro x
  refine ⟨decode_of_encode_eq_x rfl rfl, fun s => ⟨fun hfit => ?_, fun hout => ?_⟩⟩
  · have hlen : s.i.toNat + (decimalDigits (s.reg x)).length ≤ 4096 := show s.i.toNat + 3 ≤ 4096 by omega
    obtain ⟨hundreds, tens, ones⟩ := s.byte_store_decimalDigits (s.reg x) hfit
    exact ⟨_, s.complete_writeAtI_of_fits hlen, hundreds, tens, ones, s.onlyChanges_store_advance hlen⟩
  · exact s.complete_writeAtI_of_leaves (show 4096 < s.i.toNat + 3 by omega)

/-- Settles O54: byte `k` of the range is register `k`, `State.byte_store_regsUpTo`. -/
theorem bulkStoreCopiesRegisters : Obligations.BulkStoreCopiesRegisters := by
  intro x
  refine ⟨decode_of_encode_eq_x rfl rfl, fun s => ?_⟩
  have hlen := s.regsUpTo_length x
  refine ⟨fun hfit => ?_, fun hout => ?_⟩
  · have hframe := s.onlyChanges_store_advance (bs := s.regsUpTo x) (by omega)
    rw [hlen] at hframe
    exact ⟨_, exec_ldMemVx_of_fits hfit, fun k hk => s.byte_store_regsUpTo hk hfit, hframe⟩
  · have hfault := s.complete_writeAtI_of_leaves (bs := s.regsUpTo x) (by omega)
    rw [hlen] at hfault
    exact hfault

/-! ## Loads -/

@[simp] theorem State.setRegsFrom_pc (s : State) (k : Nat) (bs : List Byte) : (s.setRegsFrom k bs).pc = s.pc := by
  rw [State.setRegsFrom_eq]

/-- Fx65 loads register `k` from the byte `k` above the index register. -/
theorem State.reg_setRegsFrom_bytes (s : State) {x k : RegNum} (hk : k ≤ x) :
    (s.setRegsFrom 0 (s.mem.bytes s.params.font s.i (x.val + 1))).reg k = s.byte (s.i + BitVec.ofNat 12 k.val) := by
  rw [State.reg_setRegsFrom, if_pos (Nat.zero_le _), Nat.sub_zero, State.bytes_getElem?,
    if_pos (Nat.lt_succ_of_le hk), Option.getD_some]

theorem exec_ldVxMem_of_fits {x : RegNum} {s : State} (hfit : s.i.toNat + x.val ≤ 0xFFF) :
    exec (.ldVxMem x) s =
      .next (s.setRegsFrom 0 (s.mem.bytes s.params.font s.i (x.val + 1))).advance := by
  show s.complete ((s.readAtI (x.val + 1)).map _) = _
  rw [State.readAtI_eq, if_neg (by omega)]
  rfl

theorem exec_ldVxMem_of_leaves {x : RegNum} {s : State} (hout : 0xFFF < s.i.toNat + x.val) :
    exec (.ldVxMem x) s = .next (s.raise (.addressSpaceViolation .data s.i (x.val + 1))) := by
  show s.complete ((s.readAtI (x.val + 1)).map _) = _
  rw [State.readAtI_eq, if_pos (by omega)]
  rfl

/-- Settles O55: register `k` is byte `k` of the range, `State.reg_setRegsFrom_bytes`; memory is not written. -/
theorem bulkLoadCopiesMemory : Obligations.BulkLoadCopiesMemory := by
  intro x
  refine ⟨decode_of_encode_eq_x rfl rfl, fun s => ⟨fun hfit => ?_, exec_ldVxMem_of_leaves⟩⟩
  have hframe := s.onlyChanges_setRegsFrom_zero x (Memory.bytes_length (f := s.params.font) s.mem s.i (x.val + 1))
  exact ⟨_, exec_ldVxMem_of_fits hfit, fun k hk => s.reg_setRegsFrom_bytes hk,
    hframe.advance_cons (s.setRegsFrom_pc 0 _) (s.setRegsFrom_params 0 _)⟩

end Sys2Proof.Machine

/-! Framebuffer (`43_display.md` R120 to R123): where the pixels of a sprite row stand, what one draw does to every
pixel and to the flag, and what a second draw of the same sprite does. -/

namespace Sys2Proof.Machine

/-! ## The mask of a sprite row -/

theorem ror64_eq_rotateRight (v : RowBits) (k : Nat) : ror64 v k = v.rotateRight k := rfl

/-- Before it is rotated, a sprite row stands in the leftmost columns. -/
theorem getMsbD_leftmost (b : Byte) (k : Nat) : (b.setWidth 64 <<< 56 : RowBits).getMsbD k = b.getMsbD k := by
  simp

/-- Column `c` of the mask is the byte's pixel `c − cx`, counted modulo 64 from the left (R121). -/
theorem rowMask_column (b : Byte) {cx : Nat} (hcx : cx < 64) (c : Fin 64) :
    (rowMask b cx).getLsbD (63 - c.val) =
      (decide ((c.val + 64 - cx) % 64 < 8) && b.getLsbD (7 - (c.val + 64 - cx) % 64)) := by
  have hc := c.isLt
  have hmsb : (rowMask b cx).getMsbD c.val = b.getMsbD ((c.val + 64 - cx) % 64) := by
    rw [rowMask, ror64_eq_rotateRight, BitVec.getMsbD_rotateRight, Nat.mod_eq_of_lt hcx, decide_eq_true hc,
      Bool.true_and, getMsbD_leftmost, getMsbD_leftmost]
    split
    · rw [Nat.add_comm 64]
    · congr 1
      omega
  rw [BitVec.getMsbD_eq_getLsbD, BitVec.getMsbD_eq_getLsbD, decide_eq_true hc, Bool.true_and] at hmsb
  exact hmsb

/-- Settles O32: each bit by `rowMask_column`, the literal by evaluation. -/
theorem rowMaskRotatesTheByte : Obligations.RowMaskRotatesTheByte := by
  refine ⟨fun b cx j hcx => ?_, fun b cx c hcx hout => ?_, by decide⟩
  · have hj := j.isLt
    have hcol : ((cx + j.val) % 64 + 64 - cx) % 64 = j.val := by omega
    have hbit := rowMask_column b hcx ⟨(cx + j.val) % 64, Nat.mod_lt _ (by decide)⟩
    simpa [hcol] using hbit
  · have hc := c.isLt
    have hfar : ¬ (c.val + 64 - cx) % 64 < 8 := by
      intro hlt
      have hcol := hout ⟨_, hlt⟩
      simp only at hcol
      omega
    rw [rowMask_column b hcx, decide_eq_false hfar, Bool.false_and]

/-! ## Clear screen -/

/-- Settles O56: every row of a framebuffer of zero rows is zero. -/
theorem clearScreenClearsEveryRow : Obligations.ClearScreenClearsEveryRow :=
  ⟨decode_encode .cls, fun s =>
    ⟨_, rfl, fun r => Vector.getElem_replicate r.isLt, (s.onlyChanges_fb _).advance_cons rfl rfl⟩⟩

/-! ## A row and a sprite byte as their pixels, column 0 the highest bit -/

theorem columns_ext {n : Nat} {v w : BitVec (n + 1)}
    (h : ∀ c : Fin (n + 1), v.getLsbD (n - c.val) = w.getLsbD (n - c.val)) : v = w := by
  apply BitVec.eq_of_getMsbD_eq
  intro c hc
  simpa [BitVec.getMsbD_eq_getLsbD, hc] using h ⟨c, hc⟩

theorem ne_zero_iff_exists_column {n : Nat} {v : BitVec (n + 1)} :
    v ≠ 0 ↔ ∃ c : Fin (n + 1), v.getLsbD (n - c.val) = true := by
  constructor
  · intro hne
    by_contra hnone
    refine hne (columns_ext fun c => ?_)
    simpa using not_exists.1 hnone c
  · rintro ⟨c, hc⟩ rfl
    simp at hc

/-- The framebuffer is its pixels (`10_state.md` R22). -/
theorem fb_eq_of_pixel {s t : State} (h : ∀ r c, s.pixel r c = t.pixel r c) : s.fb = t.fb :=
  Vector.ext fun r hr => columns_ext (h ⟨r, hr⟩)

/-! ## One draw -/

/-- The mask that Dxyn exclusive-ors into a framebuffer row: the sprite row that falls on it, or none (R122). -/
def State.spriteMask (s : State) (x y : RegNum) (n : BitVec 4) (r : Fin 32) : RowBits :=
  ((s.mem.bytes s.params.font s.i n.toNat)[(r.val + 32 - (s.reg y).toNat % 32) % 32]?).elim 0
    fun b => rowMask b ((s.reg x).toNat % 64)

/-- The mask's columns are the pixels the rule R122 counts. -/
theorem State.spriteMask_column (s : State) (x y : RegNum) (n : BitVec 4) (r : Fin 32) (c : Fin 64) :
    (s.spriteMask x y n r).getLsbD (63 - c.val) = spritePixel s x y n r c := by
  rw [State.spriteMask, State.bytes_getElem?, spritePixel]
  by_cases hrow : (r.val + 32 - (s.reg y).toNat % 32) % 32 < n.toNat
  · simp [hrow, rowMask_column _ (Nat.mod_lt _ (by decide : 64 > 0))]
  · simp [hrow]

/-- What Dxyn leaves before `Next`, its `n` bytes read. -/
def State.drawnAt (s : State) (x y : RegNum) (n : BitVec 4) : State :=
  s.drawn (s.reg x) (s.reg y) (s.mem.bytes s.params.font s.i n.toNat)

theorem exec_drwVxVyN_of_fits {x y : RegNum} {n : BitVec 4} {s : State} (hfit : s.i.toNat + n.toNat ≤ 4096) :
    exec (.drwVxVyN x y n) s = .next (s.drawnAt x y n).advance := by
  show s.complete ((s.readAtI n.toNat).map _) = _
  rw [State.readAtI_eq, if_neg (Nat.not_lt.2 hfit)]
  rfl

theorem exec_drwVxVyN_of_leaves {x y : RegNum} {n : BitVec 4} {s : State} (hout : 4096 < s.i.toNat + n.toNat) :
    exec (.drwVxVyN x y n) s = .next (s.raise (.addressSpaceViolation .data s.i n.toNat)) := by
  show s.complete ((s.readAtI n.toNat).map _) = _
  rw [State.readAtI_eq, if_pos hout]
  rfl

/-- A sprite has at most 15 rows, so no row of the framebuffer is drawn on twice. -/
theorem bytes_length_le (m : Memory) (f : Config.Font) (a : Addr) (n : BitVec 4) :
    (m.bytes f a n.toNat).length ≤ 32 := by
  have := n.isLt
  rw [Memory.bytes_length]
  omega

theorem State.drawnAt_row (s : State) (x y : RegNum) (n : BitVec 4) (r : Fin 32) :
    (s.drawnAt x y n).fb[r.val] = s.fb[r.val] ^^^ s.spriteMask x y n r := by
  have hrow := drawRows_row ((s.reg x).toNat % 64) _ ((s.reg y).toNat % 32) s.fb false
    (bytes_length_le s.mem s.params.font s.i n) r
  rwa [Nat.mod_mod] at hrow

theorem State.drawnAt_pixel (s : State) (x y : RegNum) (n : BitVec 4) (r : Fin 32) (c : Fin 64) :
    (s.drawnAt x y n).pixel r c = (s.pixel r c != spritePixel s x y n r c) := by
  rw [State.pixel, State.drawnAt_row, BitVec.getLsbD_xor, State.spriteMask_column, Bool.bne_eq_xor, State.pixel]

theorem flagByte_eq_one_iff {c : Bool} : flagByte c = 1 ↔ c = true := by
  cases c <;> decide

/-- The collision bit of the drawing loop, row by row. -/
theorem State.drawnAt_hit_row (s : State) (x y : RegNum) (n : BitVec 4) :
    (s.drawnAt x y n).reg 15 = 1 ↔ ∃ r : Fin 32, s.fb[r.val] &&& s.spriteMask x y n r ≠ 0 := by
  have hhit := drawRows_hit ((s.reg x).toNat % 64) _ ((s.reg y).toNat % 32) s.fb false
    (bytes_length_le s.mem s.params.font s.i n)
  rw [State.drawnAt, State.reg_drawn_vf, flagByte_eq_one_iff, hhit, or_iff_right Bool.false_ne_true, Nat.mod_mod]
  refine exists_congr fun r => ?_
  rw [State.spriteMask]
  cases (s.mem.bytes s.params.font s.i n.toNat)[(r.val + 32 - (s.reg y).toNat % 32) % 32]? with
  | none => simp
  | some b => simp

theorem State.drawnAt_hit (s : State) (x y : RegNum) (n : BitVec 4) :
    (s.drawnAt x y n).reg 15 = 1 ↔
      ∃ (r : Fin 32) (c : Fin 64), s.pixel r c = true ∧ spritePixel s x y n r c = true := by
  simp only [State.drawnAt_hit_row, ne_zero_iff_exists_column, BitVec.getLsbD_and, Bool.and_eq_true,
    State.spriteMask_column, State.pixel]

theorem State.onlyChanges_drawnAt (s : State) (x y : RegNum) (n : BitVec 4) :
    onlyChanges s (s.drawnAt x y n) (.reg 15 :: rowsAt (s.reg y).toNat n.toNat) := by
  have hframe := s.onlyChanges_drawn (s.reg x) (s.reg y) (bytes_length_le s.mem s.params.font s.i n)
  rwa [Memory.bytes_length] at hframe

/-- Settles O57: a sprite that fits draws every pixel by `State.drawnAt_pixel`, with the flag of `State.drawnAt_hit`;
one that does not takes the fault by `exec_drwVxVyN_of_leaves`. -/
theorem drawXorsTheSprite : Obligations.DrawXorsTheSprite := by
  intro x y n
  refine ⟨decode_of_encode_eq (word_xyn 0xD#4 x y n), fun s => ⟨fun hfit => ?_, exec_drwVxVyN_of_leaves⟩⟩
  have hflag : (s.drawnAt x y n).reg 15 = 0 ∨ (s.drawnAt x y n).reg 15 = 1 := by
    rw [State.drawnAt, State.reg_drawn_vf]
    exact flagByte_eq_zero_or_one _
  exact ⟨_, exec_drwVxVyN_of_fits hfit, s.drawnAt_pixel x y n, hflag, s.drawnAt_hit x y n,
    (s.onlyChanges_drawnAt x y n).advance_cons rfl rfl⟩

/-! ## Two draws -/

/-- The sprite is the same wherever the coordinates, the index register and the memory are. -/
theorem spritePixel_congr {s t : State} {x y : RegNum} (hx : t.reg x = s.reg x) (hy : t.reg y = s.reg y)
    (hi : t.i = s.i) (hbyte : ∀ a, t.byte a = s.byte a) (n : BitVec 4) (r : Fin 32) (c : Fin 64) :
    spritePixel t x y n r c = spritePixel s x y n r c := by
  simp only [spritePixel, hx, hy, hi, hbyte]

/-- A byte that is not 0 puts a pixel on the screen. -/
theorem exists_spritePixel {s : State} {n : BitVec 4} {k : Nat} (x y : RegNum) (hk : k < n.toNat)
    (hbyte : s.byte (s.i + BitVec.ofNat 12 k) ≠ 0) : ∃ r c, spritePixel s x y n r c = true := by
  have hn := n.isLt
  obtain ⟨j, hj⟩ := ne_zero_iff_exists_column.1 hbyte
  have hcolumn := j.isLt
  have hdr : (((s.reg y).toNat + k) % 32 + 32 - (s.reg y).toNat % 32) % 32 = k := by omega
  have hdc : (((s.reg x).toNat + j.val) % 64 + 64 - (s.reg x).toNat % 64) % 64 = j.val := by omega
  refine ⟨Fin.ofNat 32 ((s.reg y).toNat + k), Fin.ofNat 64 ((s.reg x).toNat + j.val), ?_⟩
  simp [spritePixel, hdr, hdc, hk, hcolumn, hj]

/-- Settles O33 from what one draw does, `drawXorsTheSprite`: the second draw is of the same sprite,
`spritePixel_congr`, so it takes each pixel back; if the first met no set pixel, every pixel of the sprite
is set before the second. -/
theorem drawingTwiceRestores : Obligations.DrawingTwiceRestores := by
  intro x y n s hx hy hfit
  obtain ⟨-, hdraw⟩ := drawXorsTheSprite x y n
  obtain ⟨t, hst, hpixel, -, hhit, -, hframe⟩ := (hdraw s).1 hfit
  have hi : t.i = s.i := hframe .i (by simp [rowsAt])
  have hsame : ∀ r c, spritePixel t x y n r c = spritePixel s x y n r c :=
    spritePixel_congr (hframe (.reg x) (by simp [rowsAt, hx])) (hframe (.reg y) (by simp [rowsAt, hy])) hi
      (fun a => hframe (.byte a) (by simp [rowsAt])) n
  obtain ⟨u, htu, hpixel', -, hhit', -, -⟩ := (hdraw t).1 (hi ▸ hfit)
  refine ⟨t, u, hst, htu, fb_eq_of_pixel fun r c => ?_, fun hmiss hset => ?_⟩
  · rw [hpixel', hpixel, hsame]
    simp
  · obtain ⟨k, hk, hbyte⟩ := hset
    obtain ⟨r, c, hsprite⟩ := exists_spritePixel x y hk hbyte
    have hclear : s.pixel r c = false := by
      by_contra hlit
      have hone := hhit.2 ⟨r, c, by simpa using hlit, hsprite⟩
      exact absurd (hmiss.symm.trans hone) (by decide)
    refine hhit'.2 ⟨r, c, ?_, (hsame r c).trans hsprite⟩
    rw [hpixel, hclear, hsprite]
    rfl

end Sys2Proof.Machine

/-! Keypad and timers (`44_keypad_timers.md` R130 to R137): the key skips, the key wait and the timer moves, and that a
timer has no writers but its move, Tick and Reset. -/

namespace Sys2Proof.Machine

/-! ## Key skips -/

theorem State.pressed_iff (s : State) (v : Byte) :
    s.pressed v = true ↔ v.toNat ≤ 15 ∧ s.key.getLsbD v.toNat = true := by
  rw [State.pressed, Bool.and_eq_true, decide_eq_true_iff]

/-- Settles O58: the condition of SKP is `State.pressed_iff`, and that of SKNP its negation. -/
theorem keySkipsTestTheKeypad : Obligations.KeySkipsTestTheKeypad := by
  intro x
  refine ⟨decode_of_encode_eq_x rfl rfl, decode_of_encode_eq_x rfl rfl, fun s => ⟨?_, ?_⟩⟩
  · exact exec_of_skipIf rfl (s.pressed_iff _)
  · have hnot : (!s.pressed (s.reg x)) = true ↔
        ¬ ((s.reg x).toNat ≤ 15 ∧ s.key.getLsbD (s.reg x).toNat = true) := by
      rw [Bool.not_eq_true', ← Bool.not_eq_true, s.pressed_iff]
    simpa only [ite_not] using exec_of_skipIf (i := .sknpVx x) rfl hnot

/-! ## Key wait -/

theorem exec_ldVxK_of_pressed {s : State} {k : Nat} (h : s.lowestKey = some k) (x : RegNum) :
    exec (.ldVxK x) s = .next (s.setReg x (BitVec.ofNat 8 k)).advance := by
  simp only [exec, execLdVxK, h]

theorem exec_ldVxK_of_none_pressed {s : State} (h : s.lowestKey = none) (x : RegNum) :
    exec (.ldVxK x) s = .next s := by
  simp only [exec, execLdVxK, h]

/-- Settles O59: the scan finds the least pressed key, `State.lowestKey_eq_some`, whose number fits in a byte, or none,
`State.lowestKey_eq_none`. -/
theorem keyWaitTakesTheLowestKey : Obligations.KeyWaitTakesTheLowestKey := by
  intro x
  refine ⟨decode_of_encode_eq_x rfl rfl, fun s => ⟨fun k hk hmin => ?_, fun hnone => ?_⟩⟩
  · obtain ⟨t, hexec, hreg, hrest⟩ := exec_of_setReg (exec_ldVxK_of_pressed (State.lowestKey_eq_some hk hmin) x)
    exact ⟨t, hexec, by rw [hreg, digit_toNat (by omega)], hrest⟩
  · exact exec_ldVxK_of_none_pressed (State.lowestKey_eq_none hnone) x

/-! ## Timer moves -/

/-- Settles O60: each move is one copy, then `Next`. -/
theorem timerMovesCopy : Obligations.TimerMovesCopy := by
  intro x
  refine ⟨decode_of_encode_eq_x rfl rfl, decode_of_encode_eq_x rfl rfl, decode_of_encode_eq_x rfl rfl,
    fun s => ⟨?_, ?_, ?_⟩⟩
  · exact exec_of_setReg rfl
  · exact ⟨_, rfl, s.setDt_dt _, (s.onlyChanges_setDt _).advance rfl rfl⟩
  · exact ⟨_, rfl, s.setSt_st _, (s.onlyChanges_setSt _).advance rfl rfl⟩

/-! ## The writers of the timers -/

/-- The access tables list each timer for its own move alone (R17, R137). -/
theorem timers_mem_writesOf (i : Instr) (s : State) :
    (.dt ∈ writesOf i s → ∃ x, i = .ldDtVx x) ∧ (.st ∈ writesOf i s → ∃ x, i = .ldStVx x) := by
  cases i with
  | cls | drwVxVyN _ _ _ => simp [writesOf, rowsAt]
  | callAddr _ => rcases s.sp_eq_full_or_slot with hsp | ⟨k, hsp⟩ <;> simp [writesOf, slotAt, hsp]
  | ldBVx _ | ldMemVx _ => simp [writesOf, bytesAt]
  | ldVxMem _ => simp [writesOf, regsTo]
  | _ => simp [writesOf]

/-- The frame of Execute: a place it changes is the latch, or listed for the instruction its word decodes to. -/
theorem mem_writesOf_of_execute {w : Word} {s t : State} {p : Place} (hp : p ≠ .err) (h : execute w s = .next t)
    (hchanged : ¬ p.same s t) : ∃ i, decode w = .ok i ∧ p ∈ writesOf i s := by
  obtain ⟨-, hhalted⟩ | ⟨-, i, hdecode, hexec⟩ | ⟨-, -, hraise⟩ := execute_cases w s
  · cases hhalted.symm.trans h
    exact absurd (p.same_refl s) hchanged
  · exact ⟨i, hdecode, by_contra fun hw => hchanged (exec_onlyChanges (hexec.symm.trans h) p hw)⟩
  · cases hraise.symm.trans h
    exact absurd (s.onlyChanges_raise _ p (by simpa using hp)) hchanged

/-- A step that fetches a word is the Execute transaction of that word (`50_host_interface.md` R144). -/
theorem step_eq_execute {s : State} {w : Word} (h : s.fetchAt s.pc = .ok w) : step s = execute w s := by
  unfold step execute State.fetchInstr
  rw [h]
  rfl

/-- A step that cannot fetch changes the latch at most (R165, R166). -/
theorem step_onlyChanges_of_fetch_error {s t : State} {e : FaultRecord} (hfetch : s.fetchAt s.pc = .error e)
    (h : step s = .next t) : onlyChanges s t [.err] := by
  have herror : s.fetchInstr = .error e := by
    rw [State.fetchInstr, hfetch]
    rfl
  obtain ⟨-, hhalted⟩ | ⟨-, i, hok, -⟩ | ⟨-, e', -, hraise⟩ := step_cases s
  · cases hhalted.symm.trans h
    exact onlyChanges_refl s _
  · cases herror.symm.trans hok
  · cases hraise.symm.trans h
    exact s.onlyChanges_raise e'

/-- The frame of LoadProgram: the bytes of the program, and the latch. -/
theorem State.onlyChanges_loadProgram (s : State) (bs : List Byte) :
    onlyChanges s (s.loadProgram bs) (.err :: bytesAt 0x200 bs.length) := by
  rcases Nat.lt_or_ge 3584 bs.length with hlong | hfit
  · rw [s.loadProgram_of_too_long hlong]
    split
    · exact onlyChanges_refl s _
    · exact (s.onlyChanges_raise _).mono (by simp)
  · rw [s.loadProgram_of_fits hfit]
    exact (s.onlyChanges_store 0x200 bs (show 512 + bs.length ≤ 4096 by omega)).mono (List.subset_cons_self _ _)

/-- What changes a timer: Reset, Tick, or an executed instruction that lists it. -/
theorem perform_changes_timer {tr : Transaction} {s t : State} {p : Place} (hp : p = .dt ∨ p = .st)
    (h : perform tr s = .next t) (hchanged : ¬ p.same s t) :
    tr = .reset ∨ tr = .tick ∨ ∃ w i, executedWord tr s = some w ∧ decode w = .ok i ∧ p ∈ writesOf i s := by
  have herr : p ≠ .err := by
    rcases hp with rfl | rfl <;> simp
  cases tr with
  | reset => exact Or.inl rfl
  | tick => exact Or.inr (Or.inl rfl)
  | step =>
    cases hfetch : s.fetchAt s.pc with
    | error e => exact absurd (step_onlyChanges_of_fetch_error hfetch h p (by simpa using herr)) hchanged
    | ok w =>
      obtain ⟨i, hi⟩ := mem_writesOf_of_execute herr ((step_eq_execute hfetch).symm.trans h) hchanged
      exact Or.inr (Or.inr ⟨w, i, congrArg Except.toOption hfetch, hi⟩)
  | execute w =>
    obtain ⟨i, hi⟩ := mem_writesOf_of_execute herr h hchanged
    exact Or.inr (Or.inr ⟨w, i, rfl, hi⟩)
  | loadProgram bs =>
    cases h
    refine absurd (s.onlyChanges_loadProgram bs p ?_) hchanged
    rcases hp with rfl | rfl <;> simp [bytesAt]
  | seed _ | setKeys _ | observe =>
    cases h
    rcases hp with rfl | rfl <;> exact absurd rfl hchanged

/-- Settles O26: an executed instruction that changes a timer lists it, `perform_changes_timer`, so it is the timer's
move, `timers_mem_writesOf`. -/
theorem timersChangeOnlyByTheirWriters : Obligations.TimersChangeOnlyByTheirWriters := by
  intro tr s t h
  refine ⟨fun hdt => ?_, fun hst => ?_⟩
  · refine (perform_changes_timer (.inl rfl) h hdt).imp_right (Or.imp_right ?_)
    rintro ⟨w, i, hw, hi, hmem⟩
    obtain ⟨x, rfl⟩ := (timers_mem_writesOf i s).1 hmem
    exact ⟨w, x, hw, hi⟩
  · refine (perform_changes_timer (.inr rfl) h hst).imp_right (Or.imp_right ?_)
    rintro ⟨w, i, hw, hi, hmem⟩
    obtain ⟨x, rfl⟩ := (timers_mem_writesOf i s).2 hmem
    exact ⟨w, x, hw, hi⟩

end Sys2Proof.Machine

/-! The host interface (`50_host_interface.md` R141 to R152): what Step and Execute do in each case, that every
transaction completes, what Seed, SetKeys, Tick and LoadProgram change, where a run stands still, and the runs of a
host that keeps its duties. -/

namespace Sys2Proof.Machine

/-! ## Step and Execute -/

theorem State.halted_iff (s : State) : s.halted = true ↔ s.err ≠ none :=
  Option.isSome_iff_ne_none

theorem step_of_halted {s : State} (h : s.err ≠ none) : step s = .next s := by
  rw [step, if_pos (s.halted_iff.2 h)]

theorem step_of_fetchInstr_ok {s : State} {i : Instr} (hlive : s.err = none) (h : s.fetchInstr = .ok i) :
    step s = exec i s := by
  simp [step, State.halted, hlive, h]

theorem step_of_fetchInstr_error {s : State} {e : FaultRecord} (hlive : s.err = none) (h : s.fetchInstr = .error e) :
    step s = .next (s.raise e) := by
  simp [step, State.halted, hlive, h]

theorem execute_of_halted {s : State} (h : s.err ≠ none) (w : Word) : execute w s = .next s := by
  rw [execute, if_pos (s.halted_iff.2 h)]

theorem execute_of_decode_ok {s : State} {w : Word} {i : Instr} (hlive : s.err = none) (h : decode w = .ok i) :
    execute w s = exec i s := by
  simp [execute, State.halted, hlive, decodeStage_of_ok h]

theorem execute_of_decode_error {s : State} {w : Word} {e : DecodeError} (hlive : s.err = none)
    (h : decode w = .error e) : execute w s = .next (s.raise (.unrecognizedOpcode w)) := by
  simp [execute, State.halted, hlive, decodeStage_of_error h]

/-- Settles O7: the first two stages are those of `State.fetchInstr_eq`. -/
theorem stepRunsTheDecodedInstruction : Obligations.StepRunsTheDecodedInstruction := by
  intro s
  refine ⟨step_of_halted, fun hlive hpc => ?_, fun hlive hpc => ⟨fun i hi => ?_, fun e he => ?_⟩⟩
  · refine step_of_fetchInstr_error hlive ?_
    rw [State.fetchInstr_eq, if_pos hpc, hpc]
  · refine step_of_fetchInstr_ok hlive ?_
    rw [State.fetchInstr_eq, if_neg hpc, decodeStage_of_ok hi]
  · refine step_of_fetchInstr_error hlive ?_
    rw [State.fetchInstr_eq, if_neg hpc, decodeStage_of_error he]

/-- Settles O9: one lemma a case of Execute, and `step_eq_execute`. -/
theorem executeIsStepWithoutFetch : Obligations.ExecuteIsStepWithoutFetch :=
  fun w _ => ⟨fun hlive _ => execute_of_decode_ok hlive, fun hlive _ => execute_of_decode_error hlive,
    fun h => execute_of_halted h w, step_eq_execute⟩

/-! ## Every transaction completes -/

@[simp] theorem State.setRegsFrom_err (s : State) (k : Nat) (bs : List Byte) : (s.setRegsFrom k bs).err = s.err := by
  rw [State.setRegsFrom_eq]

/-- All that an instruction can do to the latch: it has no fault of its own (R163, R167, R168, R177) and completes with
the latch as it was, or it takes that fault. -/
theorem exec_cases (i : Instr) (s : State) :
    (ownFault i s = none ∧ ∃ t, exec i s = .next t ∧ t.err = s.err) ∨
    ∃ e, ownFault i s = some e ∧ exec i s = .next (s.raise e) := by
  cases i with
  | ret =>
    rcases s.sp_eq_zero_or_succ with hzero | ⟨k, hk⟩
    · exact Or.inr ⟨_, if_pos hzero, exec_ret_of_empty hzero⟩
    · exact Or.inl ⟨if_neg (by omega), _, exec_ret_of_succ hk, rfl⟩
  | callAddr addr =>
    rcases s.sp_eq_full_or_slot with hfull | ⟨k, hk⟩
    · exact Or.inr ⟨_, if_pos hfull, exec_callAddr_of_full hfull addr⟩
    · exact Or.inl ⟨if_neg (by omega), _, exec_callAddr_of_slot hk addr, rfl⟩
  | drwVxVyN x y n =>
    rcases Nat.lt_or_ge 4096 (s.i.toNat + n.toNat) with hout | hfit
    · exact Or.inr ⟨_, if_pos ((lt_add_iff_last_gt _ _).1 hout), exec_drwVxVyN_of_leaves hout⟩
    · exact Or.inl ⟨if_neg fun hlast => Nat.not_lt.2 hfit ((lt_add_iff_last_gt _ _).2 hlast), _,
        exec_drwVxVyN_of_fits hfit, rfl⟩
  | ldBVx x =>
    rcases Nat.lt_or_ge 4096 (s.i.toNat + 3) with hout | hfit
    · exact Or.inr ⟨_, if_pos (by omega), s.complete_writeAtI_of_leaves (bs := decimalDigits (s.reg x)) hout⟩
    · exact Or.inl ⟨if_neg (by omega), _, s.complete_writeAtI_of_fits (bs := decimalDigits (s.reg x)) hfit, rfl⟩
  | ldMemVx x =>
    have hlen := s.regsUpTo_length x
    rcases Nat.lt_or_ge 0xFFF (s.i.toNat + x.val) with hout | hfit
    · have hfault := s.complete_writeAtI_of_leaves (bs := s.regsUpTo x) (by omega)
      rw [hlen] at hfault
      exact Or.inr ⟨_, if_pos hout, hfault⟩
    · exact Or.inl ⟨if_neg (Nat.not_lt.2 hfit), _, exec_ldMemVx_of_fits hfit, rfl⟩
  | ldVxMem x =>
    rcases Nat.lt_or_ge 0xFFF (s.i.toNat + x.val) with hout | hfit
    · exact Or.inr ⟨_, if_pos hout, exec_ldVxMem_of_leaves hout⟩
    · exact Or.inl ⟨if_neg (Nat.not_lt.2 hfit), _, exec_ldVxMem_of_fits hfit, s.setRegsFrom_err 0 _⟩
  | ldVxK x =>
    cases hkey : s.lowestKey with
    | some k => exact Or.inl ⟨rfl, _, exec_ldVxK_of_pressed hkey x, rfl⟩
    | none => exact Or.inl ⟨rfl, _, exec_ldVxK_of_none_pressed hkey x, rfl⟩
  | seVxKk _ _ | sneVxKk _ _ | seVxVy _ _ | sneVxVy _ _ | skpVx _ | sknpVx _ =>
    exact Or.inl ⟨rfl, _, rfl, s.skipIf_err _⟩
  | _ => exact Or.inl ⟨rfl, _, rfl, rfl⟩

theorem exec_completes (i : Instr) (s : State) : ∃ t, exec i s = .next t := by
  obtain ⟨-, t, hexec, -⟩ | ⟨e, -, hexec⟩ := exec_cases i s
  · exact ⟨t, hexec⟩
  · exact ⟨_, hexec⟩

theorem step_completes (s : State) : ∃ t, step s = .next t := by
  obtain ⟨-, hstep⟩ | ⟨-, i, -, hstep⟩ | ⟨-, e, -, hstep⟩ := step_cases s
  · exact ⟨s, hstep⟩
  · rw [hstep]
    exact exec_completes i s
  · exact ⟨_, hstep⟩

theorem execute_completes (w : Word) (s : State) : ∃ t, execute w s = .next t := by
  obtain ⟨-, hexecute⟩ | ⟨-, i, -, hexecute⟩ | ⟨-, -, hexecute⟩ := execute_cases w s
  · exact ⟨s, hexecute⟩
  · rw [hexecute]
    exact exec_completes i s
  · exact ⟨_, hexecute⟩

theorem perform_completes (tr : Transaction) (s : State) : ∃ t, perform tr s = .next t := by
  cases tr with
  | step => exact step_completes s
  | execute w => exact execute_completes w s
  | reset | seed _ | loadProgram _ | setKeys _ | tick | observe => exact ⟨_, rfl⟩

/-- Settles O11: an instruction completes in each of the cases of `exec_cases`, and every transaction with it. -/
theorem everyTransactionCompletes : Obligations.EveryTransactionCompletes :=
  fun s => ⟨step_completes s, fun tr => perform_completes tr s, fun i => exec_completes i s⟩

/-! ## Seed, SetKeys, Tick and LoadProgram -/

theorem State.onlyChanges_seed (s : State) (r : Config.RngState) : onlyChanges s (s.seed r) [.rng] := by
  intro p hp
  cases p with
  | rng => simp at hp
  | _ => rfl

theorem State.onlyChanges_setKeys (s : State) (k : BitVec 16) : onlyChanges s (s.setKeys k) [.key] := by
  intro p hp
  cases p with
  | key => simp at hp
  | _ => rfl

theorem State.onlyChanges_tick (s : State) : onlyChanges s s.tick [.dt, .st] :=
  (s.onlyChanges_setSt (countDown s.st)).append (State.onlyChanges_setDt _ (countDown s.dt))

/-- The timer stops at zero, as the truncated difference of numbers does (decision D17). -/
theorem countDown_toNat (b : Byte) : (countDown b).toNat = b.toNat - 1 := by
  unfold countDown
  split
  next hpos => exact BitVec.toNat_sub_of_le hpos
  next hzero => omega

/-- Settles O20: both timers by `countDown_toNat`. -/
theorem tickCountsBothTimersDown : Obligations.TickCountsBothTimersDown :=
  fun s => ⟨s.tick, rfl, countDown_toNat s.dt, countDown_toNat s.st, s.onlyChanges_tick⟩

/-- Settles O21: the keypad is the argument. -/
theorem setKeysReplacesTheKeypad : Obligations.SetKeysReplacesTheKeypad :=
  fun s k => ⟨s.setKeys k, rfl, fun j => congrArg (·.getLsbD j.val) (s.setKeys_key k), s.onlyChanges_setKeys k⟩

/-- Settles O22: the generator's state is the argument. -/
theorem seedReplacesTheGenerator : Obligations.SeedReplacesTheGenerator :=
  fun s r => ⟨s.seed r, rfl, s.seed_rng r, s.onlyChanges_seed r⟩

/-- Byte `k` of a program that fits stands at 0x200 + `k` after LoadProgram (R148). -/
theorem State.byte_loadProgram (s : State) {bs : List Byte} (hfit : bs.length ≤ 3584) {k : Nat} (hk : k < bs.length) :
    (s.loadProgram bs).byte (BitVec.ofNat 12 (0x200 + k)) = bs[k] := by
  have haddr : (0x200 : Addr) + BitVec.ofNat 12 k = BitVec.ofNat 12 (0x200 + k) := add_ofNat_eq_ofNat_add 0x200 k
  rw [s.loadProgram_of_fits hfit, ← haddr]
  exact s.byte_store_inside 0x200 bs (show 512 + bs.length ≤ 4096 by omega) k hk

/-- Settles O23: a program that fits is a store at 0x200, one that does not is `State.loadProgram_of_too_long`. -/
theorem loadProgramCopiesOrFaults : Obligations.LoadProgramCopiesOrFaults := by
  intro bs s
  refine ⟨fun hfit => ⟨_, rfl, fun k hk => ?_, ?_⟩, fun hlong hlive => ?_, fun hlong hhalted => ?_⟩
  · rw [s.byte_loadProgram hfit hk, List.getElem?_eq_getElem hk]
  · rw [s.loadProgram_of_fits hfit]
    exact s.onlyChanges_store 0x200 bs (show 512 + bs.length ≤ 4096 by omega)
  · have hnot : ¬ s.halted = true := fun h => s.halted_iff.1 h hlive
    rw [perform, s.loadProgram_of_too_long hlong, if_neg hnot]
    rfl
  · rw [perform, s.loadProgram_of_too_long hlong, if_pos (s.halted_iff.2 hhalted)]

/-! ## The end of a run -/

theorem State.parked_iff (s : State) :
    s.parked = true ↔ s.err = none ∧ s.fetchAt s.pc = .ok (0x1#4 ++ s.pc) := by
  cases hfetch : s.fetchAt s.pc <;> simp [State.parked, State.halted, hfetch]

theorem State.waiting_iff (s : State) :
    s.waiting = true ↔ s.err = none ∧ (∃ x, s.fetchInstr = .ok (.ldVxK x)) ∧ s.key = 0 := by
  unfold State.waiting
  split
  next x hfetch => simp [State.halted, hfetch]
  next hother =>
    simp only [Bool.and_false, Bool.false_eq_true, false_iff]
    rintro ⟨-, ⟨x, hfetch⟩, -⟩
    exact hother x hfetch

/-- A jump to its own address writes `pc` with what it holds. -/
theorem exec_jpAddr_pc (s : State) : exec (.jpAddr s.pc) s = .next s := rfl

theorem step_of_parked {s : State} (h : s.parked = true) : step s = .next s := by
  obtain ⟨hlive, hfetch⟩ := s.parked_iff.1 h
  have hdecode : decode (0x1#4 ++ s.pc) = .ok (.jpAddr s.pc) := decode_encode (.jpAddr s.pc)
  rw [step_eq_execute hfetch, execute_of_decode_ok hlive hdecode, exec_jpAddr_pc]

theorem State.lowestKey_of_key_eq_zero {s : State} (h : s.key = 0) : s.lowestKey = none :=
  State.lowestKey_eq_none fun k => by simp [h]

theorem step_of_waiting {s : State} (h : s.waiting = true) : step s = .next s := by
  obtain ⟨hlive, ⟨x, hfetch⟩, hkey⟩ := s.waiting_iff.1 h
  rw [step_of_fetchInstr_ok hlive hfetch, exec_ldVxK_of_none_pressed (State.lowestKey_of_key_eq_zero hkey)]

theorem State.setKeys_fetchInstr (s : State) (k : BitVec 16) : (s.setKeys k).fetchInstr = s.fetchInstr := rfl

/-- With a key pressed, Fx0A ends with `Next` (R133). -/
theorem step_of_waiting_of_pressed {s : State} (h : s.waiting = true) {k : BitVec 16} (hk : k ≠ 0) :
    ∃ t, step (s.setKeys k) = .next t ∧ t.pc = s.nextPc := by
  obtain ⟨hlive, ⟨x, hfetch⟩, -⟩ := s.waiting_iff.1 h
  obtain ⟨j, hj, hmin⟩ := exists_lowest_key hk
  have hlow : (s.setKeys k).lowestKey = some j.val := State.lowestKey_eq_some hj hmin
  rw [step_of_fetchInstr_ok ((s.setKeys_err k).trans hlive) ((s.setKeys_fetchInstr k).trans hfetch),
    exec_ldVxK_of_pressed hlow]
  exact ⟨_, rfl, rfl⟩

/-- Settles O34: one lemma for each of the three ways a run stands still, and `step_of_waiting_of_pressed`. -/
theorem standingStill : Obligations.StandingStill := by
  intro s
  refine ⟨fun h => step_of_halted (s.halted_iff.1 h), step_of_parked, fun h => ⟨step_of_waiting h, fun k hk => ?_⟩⟩
  obtain ⟨t, hstep, hpc⟩ := step_of_waiting_of_pressed h hk
  exact ⟨t, hstep, by rw [hpc, s.nextPc_toNat]⟩

/-! ## The host's duties -/

/-- The fault latched, if any, is no load fault: no LoadProgram was too long (R148). -/
def loadFaultFree (s : State) : Prop :=
  ∀ a n, s.err ≠ some (.addressSpaceViolation .load a n)

theorem loadFaultFree_of_err_none {s : State} (h : s.err = none) : loadFaultFree s :=
  fun _ _ => by simp [h]

theorem ownFault_ne_load (i : Instr) (s : State) (a : Addr) (n : Nat) :
    ownFault i s ≠ some (.addressSpaceViolation .load a n) := by
  cases i with
  | ret | callAddr _ | drwVxVyN _ _ _ | ldBVx _ | ldMemVx _ | ldVxMem _ =>
    unfold ownFault
    split <;> simp
  | _ => simp [ownFault]

theorem State.fetchInstr_ne_load (s : State) (a : Addr) (n : Nat) :
    s.fetchInstr ≠ .error (.addressSpaceViolation .load a n) := by
  rw [State.fetchInstr_eq]
  split
  · simp
  · cases hdecode : decode (s.byte s.pc ++ s.byte (s.pc + 1)) with
    | ok i =>
      rw [decodeStage_of_ok hdecode]
      simp
    | error e =>
      rw [decodeStage_of_error hdecode]
      simp

/-- No stage of a step raises a load fault. -/
theorem step_keeps_loadFaultFree {s t : State} (hs : loadFaultFree s) (h : step s = .next t) : loadFaultFree t := by
  intro a n
  obtain ⟨-, hhalted⟩ | ⟨-, i, -, hexec⟩ | ⟨-, e, hfetch, hraise⟩ := step_cases s
  · cases hhalted.symm.trans h
    exact hs a n
  · obtain ⟨-, u, hu, herr⟩ | ⟨e, hown, hu⟩ := exec_cases i s
    · cases (hexec.trans hu).symm.trans h
      exact herr ▸ hs a n
    · cases (hexec.trans hu).symm.trans h
      exact fun herr => ownFault_ne_load i s a n (hown.trans herr)
  · cases hraise.symm.trans h
    rintro ⟨⟩
    exact s.fetchInstr_ne_load a n hfetch

/-- A host that keeps its duties loads only programs that fit. -/
theorem Phase.fits_of_admits_loadProgram {p q : Phase} {bs : List Byte} (h : p.admits (.loadProgram bs) = some q) :
    bs.length ≤ 3584 := by
  by_contra hlong
  cases p with
  | running => cases h
  | booting loaded =>
    cases loaded with
    | true => cases h
    | false => simp [Phase.admits, hlong] at h

theorem perform_keeps_loadFaultFree {p q : Phase} {tr : Transaction} {s t : State} (hadmits : p.admits tr = some q)
    (hs : loadFaultFree s) (h : perform tr s = .next t) : loadFaultFree t := by
  cases tr with
  | step => exact step_keeps_loadFaultFree hs h
  | execute w => cases hadmits
  | loadProgram bs =>
    cases h
    rw [s.loadProgram_of_fits (Phase.fits_of_admits_loadProgram hadmits)]
    exact hs
  | reset =>
    cases h
    exact loadFaultFree_of_err_none rfl
  | seed _ | setKeys _ | tick | observe =>
    cases h
    exact hs

theorem performAll_cons {tr : Transaction} {s t : State} (h : perform tr s = .next t) (ts : List Transaction) :
    performAll (tr :: ts) s = performAll ts t := by
  rw [performAll, h]

theorem keepsDuties_cons {p : Phase} {tr : Transaction} {ts : List Transaction} :
    keepsDuties p (tr :: ts) = true ↔ ∃ q, p.admits tr = some q ∧ keepsDuties q ts = true := by
  rw [keepsDuties]
  cases p.admits tr <;> simp

/-- From any phase on, a schedule that keeps the host's duties runs to its end and keeps what each of its transactions
keeps. -/
theorem performAll_of_keepsDuties {ts : List Transaction} {p : Phase} {s : State} (hduties : keepsDuties p ts = true)
    (hwf : s.mem.wf s.params.font = true) (hfree : loadFaultFree s) :
    ∃ t, performAll ts s = .next t ∧ t.mem.wf t.params.font = true ∧ loadFaultFree t := by
  induction ts generalizing p s with
  | nil => exact ⟨s, rfl, hwf, hfree⟩
  | cons tr ts ih =>
    obtain ⟨q, hadmits, hrest⟩ := keepsDuties_cons.1 hduties
    obtain ⟨u, hu⟩ := perform_completes tr s
    rw [performAll_cons hu]
    exact ih hrest (transactionsKeepMemoryCanonical tr s u hwf hu) (perform_keeps_loadFaultFree hadmits hfree hu)

/-- Settles O24: `performAll_of_keepsDuties` from the state after Reset. -/
theorem dutifulRunsComplete : Obligations.DutifulRunsComplete := by
  intro ts s hduties
  rw [performAll_cons (t := State.resetWith s.params) rfl]
  exact performAll_of_keepsDuties hduties (resetMemoryIsCanonical.1 s.params) (loadFaultFree_of_err_none rfl)

end Sys2Proof.Machine

/-! Exceptions (`60_exceptions.md` R161 to R168): on a core that is not halted every transaction completes in one of
two ways, with no fault listed and none latched, or with the listed fault and nothing else changed; on a halted core
only Reset touches the latch. -/

namespace Sys2Proof.Machine

/-! ## How a transaction ends on a core that is not halted -/

/-- The answer to a state is precise for the fault listed: with none listed it completes and latches none, and with one
listed it completes with that fault taken (R165). -/
def raisesExactly (s : State) (listed : Option FaultRecord) (answer : Answer) : Prop :=
  (listed = none ∧ ∃ t, answer = .next t ∧ t.err = none) ∨
  ∃ e, listed = some e ∧ answer = .next (s.raise e)

theorem raisesExactly_none {s t : State} (h : t.err = none) : raisesExactly s none (.next t) :=
  Or.inl ⟨rfl, t, rfl, h⟩

theorem raisesExactly_raise (s : State) (e : FaultRecord) : raisesExactly s (some e) (.next (s.raise e)) :=
  Or.inr ⟨e, rfl, rfl⟩

theorem raisesExactly.err_eq {s : State} {listed : Option FaultRecord} {answer : Answer}
    (h : raisesExactly s listed answer) : ∃ t, answer = .next t ∧ t.err = listed := by
  obtain ⟨rfl, hdone⟩ | ⟨e, rfl, htaken⟩ := h
  · exact hdone
  · exact ⟨_, htaken, s.raise_err e⟩

theorem raisesExactly.eq_raise {s t : State} {listed : Option FaultRecord} {e : FaultRecord}
    (h : raisesExactly s listed (.next t)) (herr : t.err = some e) : t = s.raise e := by
  obtain ⟨-, u, ⟨⟩, hnone⟩ | ⟨e', -, ⟨⟩⟩ := h
  · cases hnone.symm.trans herr
  · cases herr
    rfl

/-! ## The transactions that can fault -/

theorem exec_raisesExactly {s : State} (hlive : s.err = none) (i : Instr) :
    raisesExactly s (ownFault i s) (exec i s) :=
  (exec_cases i s).imp_left fun ⟨hown, t, hexec, herr⟩ => ⟨hown, t, hexec, herr.trans hlive⟩

theorem stepFault_of_fetchInstr_ok {s : State} {i : Instr} (h : s.fetchInstr = .ok i) :
    stepFault s = ownFault i s := by
  rw [State.fetchInstr_eq] at h
  unfold stepFault
  split at h
  · cases h
  next hpc =>
    rw [if_neg hpc]
    cases hdecode : decode (s.byte s.pc ++ s.byte (s.pc + 1)) with
    | ok j =>
      cases (decodeStage_of_ok hdecode).symm.trans h
      rfl
    | error d => cases (decodeStage_of_error hdecode).symm.trans h

theorem stepFault_of_fetchInstr_error {s : State} {e : FaultRecord} (h : s.fetchInstr = .error e) :
    stepFault s = some e := by
  rw [State.fetchInstr_eq] at h
  unfold stepFault
  split at h
  next hpc =>
    cases h
    rw [if_pos hpc, hpc]
  next hpc =>
    rw [if_neg hpc]
    cases hdecode : decode (s.byte s.pc ++ s.byte (s.pc + 1)) with
    | ok i => cases (decodeStage_of_ok hdecode).symm.trans h
    | error d =>
      cases (decodeStage_of_error hdecode).symm.trans h
      rfl

theorem step_raisesExactly {s : State} (hlive : s.err = none) : raisesExactly s (stepFault s) (step s) := by
  cases hfetch : s.fetchInstr with
  | ok i =>
    rw [stepFault_of_fetchInstr_ok hfetch, step_of_fetchInstr_ok hlive hfetch]
    exact exec_raisesExactly hlive i
  | error e =>
    rw [stepFault_of_fetchInstr_error hfetch, step_of_fetchInstr_error hlive hfetch]
    exact raisesExactly_raise s e

theorem transactionFault_execute_of_decode_ok {w : Word} {i : Instr} (h : decode w = .ok i) (s : State) :
    transactionFault (.execute w) s = ownFault i s := by
  simp [transactionFault, h]

theorem transactionFault_execute_of_decode_error {w : Word} {d : DecodeError} (h : decode w = .error d) (s : State) :
    transactionFault (.execute w) s = some (.unrecognizedOpcode w) := by
  simp [transactionFault, h]

theorem execute_raisesExactly {s : State} (hlive : s.err = none) (w : Word) :
    raisesExactly s (transactionFault (.execute w) s) (execute w s) := by
  cases hdecode : decode w with
  | ok i =>
    rw [transactionFault_execute_of_decode_ok hdecode, execute_of_decode_ok hlive hdecode]
    exact exec_raisesExactly hlive i
  | error d =>
    rw [transactionFault_execute_of_decode_error hdecode, execute_of_decode_error hlive hdecode]
    exact raisesExactly_raise s _

theorem loadProgram_raisesExactly {s : State} (hlive : s.err = none) (bs : List Byte) :
    raisesExactly s (transactionFault (.loadProgram bs) s) (.next (s.loadProgram bs)) := by
  rcases Nat.lt_or_ge 3584 bs.length with hlong | hfit
  · have hnot : ¬ s.halted = true := fun h => s.halted_iff.1 h hlive
    have htaken : s.loadProgram bs = s.raise (.addressSpaceViolation .load 0x200 bs.length) := by
      rw [s.loadProgram_of_too_long hlong, if_neg hnot]
    exact Or.inr ⟨_, if_pos hlong, congrArg _ htaken⟩
  · rw [s.loadProgram_of_fits hfit]
    exact Or.inl ⟨if_neg (Nat.not_lt.2 hfit), _, rfl, hlive⟩

theorem perform_raisesExactly {s : State} (hlive : s.err = none) (tr : Transaction) :
    raisesExactly s (transactionFault tr s) (perform tr s) := by
  cases tr with
  | step => exact step_raisesExactly hlive
  | execute w => exact execute_raisesExactly hlive w
  | loadProgram bs => exact loadProgram_raisesExactly hlive bs
  | reset => exact raisesExactly_none rfl
  | seed _ | setKeys _ | tick | observe => exact raisesExactly_none hlive

/-- Settles O12: of the two ways `perform_raisesExactly` leaves, only the taken fault ends with a fault latched. -/
theorem faultsArePrecise : Obligations.FaultsArePrecise := by
  intro tr s t e hlive h herr
  have hprecise := perform_raisesExactly hlive tr
  rw [h] at hprecise
  exact hprecise.eq_raise herr

/-- Settles O13: in both ways of `perform_raisesExactly` the latch ends as the fault listed. -/
theorem transactionsRaiseExactlyTheListedFaults : Obligations.TransactionsRaiseExactlyTheListedFaults :=
  fun tr _ hlive => (perform_raisesExactly hlive tr).err_eq

/-! ## The halted state -/

/-- LoadProgram on a halted core keeps the first fault, whether the program fits or not (log entry 19). -/
theorem State.loadProgram_err_of_halted {s : State} (h : s.err ≠ none) (bs : List Byte) :
    (s.loadProgram bs).err = s.err := by
  rcases Nat.lt_or_ge 3584 bs.length with hlong | hfit
  · rw [s.loadProgram_of_too_long hlong, if_pos (s.halted_iff.2 h)]
  · rw [s.loadProgram_of_fits hfit, State.store_err]

theorem perform_err_of_halted {tr : Transaction} {s t : State} (hhalted : s.err ≠ none) (hreset : tr ≠ .reset)
    (h : perform tr s = .next t) : t.err = s.err := by
  cases tr with
  | reset => exact absurd rfl hreset
  | step =>
    cases (step_of_halted hhalted).symm.trans h
    rfl
  | execute w =>
    cases (execute_of_halted hhalted w).symm.trans h
    rfl
  | loadProgram bs =>
    cases h
    exact State.loadProgram_err_of_halted hhalted bs
  | seed _ | setKeys _ | tick | observe =>
    cases h
    rfl

/-- Settles O10: Step and Execute stop at the halt check, Tick, SetKeys and Observe do not look at it, and the latch is
kept by `perform_err_of_halted`. -/
theorem haltedCoreStaysHalted : Obligations.HaltedCoreStaysHalted := by
  refine fun s => ⟨rfl, fun e he => ?_⟩
  have hhalted : s.err ≠ none := by simp [he]
  exact ⟨step_of_halted hhalted, execute_of_halted hhalted, rfl, fun _ => rfl,
    fun tr t hreset h => (perform_err_of_halted hhalted hreset h).trans he⟩

end Sys2Proof.Machine

/-! The worked encodings of `30_encoding.md` section 5, each word as the encoding of its instruction or outside the
family table of R66. -/

namespace Sys2Proof

theorem decode_of_not_legalWord {w : Word} (h : legalWord w = false) : decode w = .error (.unrecognizedOpcode w) :=
  let ⟨hrefused, _⟩ := illegalWordsAreTheFamilyTable w
  hrefused.2 h

/-- Settles O1: a legal word is the encoding of the instruction listed, a refused one no word of the family table. -/
theorem workedEncodingsDecode : Obligations.WorkedEncodingsDecode :=
  ⟨decode_of_encode_eq rfl, decode_of_encode_eq rfl, decode_of_encode_eq rfl, decode_of_encode_eq rfl,
    decode_of_encode_eq rfl, decode_of_encode_eq rfl, decode_of_encode_eq rfl, decode_of_encode_eq rfl,
    decode_of_not_legalWord rfl, decode_of_not_legalWord rfl, decode_of_not_legalWord rfl, decode_of_encode_eq rfl,
    decode_of_not_legalWord rfl⟩

end Sys2Proof

/-! Reset (`70_reset_and_hazards.md` R180, R182): the values of R28's table, and the step after Reset alone. -/

namespace Sys2Proof.Machine

/-! ## The reset contents of memory -/

theorem Memory.unlisted_of_lt (f : Config.Font) {a : Nat} (h : a < 80) : Memory.unlisted f a = f[a] :=
  dif_pos (c := Config.fontBase.toNat ≤ a ∧ a - Config.fontBase.toNat < 80) ⟨Nat.zero_le a, h⟩

theorem Memory.unlisted_of_ge (f : Config.Font) {a : Nat} (h : 80 ≤ a) : Memory.unlisted f a = 0 :=
  dif_neg (c := Config.fontBase.toNat ≤ a ∧ a - Config.fontBase.toNat < 80) fun ⟨_, hlt⟩ => Nat.not_lt.2 h hlt

theorem State.resetWith_byte (p : Config.Parameters) (a : Addr) :
    (State.resetWith p).byte a = Memory.unlisted p.font a.toNat := rfl

theorem State.resetWith_byte_of_lt (p : Config.Parameters) {a : Addr} (h : a.toNat < 80) :
    p.font[a.toNat]? = some ((State.resetWith p).byte a) := by
  rw [State.resetWith_byte, Memory.unlisted_of_lt p.font h, Vector.getElem?_eq_getElem h]

theorem State.resetWith_byte_of_ge (p : Config.Parameters) {a : Addr} (h : 80 ≤ a.toNat) :
    (State.resetWith p).byte a = 0 :=
  Memory.unlisted_of_ge p.font h

/-! ## The other places -/

theorem State.resetWith_reg (p : Config.Parameters) (x : RegNum) : (State.resetWith p).reg x = 0 :=
  Vector.getElem_replicate x.isLt

theorem State.resetWith_stack (p : Config.Parameters) (k : Fin 16) : (State.resetWith p).stack[k.val] = 0 :=
  Vector.getElem_replicate k.isLt

theorem State.resetWith_fb (p : Config.Parameters) (r : Fin 32) : (State.resetWith p).fb[r.val] = 0 :=
  Vector.getElem_replicate r.isLt

theorem State.resetWith_key (p : Config.Parameters) (k : Nat) : (State.resetWith p).key.getLsbD k = false :=
  BitVec.getLsbD_zero

/-- Settles O17: the arrays and memory read as their lemmas above say, the other places by definition. -/
theorem resetGivesTheTableValues : Obligations.ResetGivesTheTableValues :=
  fun s => ⟨State.resetWith s.params, rfl, rfl, rfl, State.resetWith_reg s.params, rfl, rfl, rfl, rfl, rfl,
    State.resetWith_stack s.params, fun _ => State.resetWith_byte_of_lt s.params,
    fun _ => State.resetWith_byte_of_ge s.params, State.resetWith_fb s.params, State.resetWith_key s.params, rfl, rfl⟩

/-! ## The step after Reset alone -/

/-- Above the font a fetch finds two zero bytes, as far as 0xFFF, from which nothing is fetched. -/
theorem State.resetWith_fetchAt (p : Config.Parameters) {a : Addr} (hlow : 80 ≤ a.toNat) (hhigh : a.toNat < 0xFFF) :
    (State.resetWith p).fetchAt a = .ok 0x0000 := by
  have hne : a ≠ 0xFFF := by
    rintro rfl
    exact absurd hhigh (by decide)
  have hnext : 80 ≤ (a + 1).toNat := by bv_omega
  rw [State.fetchAt_eq, if_neg hne, State.resetWith_byte_of_ge p hlow, State.resetWith_byte_of_ge p hnext]
  rfl

/-- Settles O18: the word fetched at 0x200 is 0x0000, and Step does with it what Execute does (`step_eq_execute`), which
is to latch its refusal. -/
theorem resetAloneHasNoProgram : Obligations.ResetAloneHasNoProgram := by
  refine ⟨rfl, fun p hp => ?_⟩
  have hfetch : (State.resetWith p).fetchAt 0x200 = .ok 0x0000 := State.resetWith_fetchAt p (by decide) (by decide)
  have hpc : (State.resetWith p).pc = 0x200 := hp
  have hrefused : decode 0x0000 = .error (.unrecognizedOpcode 0x0000) := decode_of_not_legalWord rfl
  refine ⟨hfetch, ?_⟩
  calc step (State.resetWith p)
      = execute 0x0000 (State.resetWith p) := step_eq_execute (hpc ▸ hfetch)
    _ = .next { State.resetWith p with err := some (.unrecognizedOpcode 0x0000) } :=
        execute_of_decode_error rfl hrefused

end Sys2Proof.Machine
